-- ==== Sys2Proof/Word.lean ====
section
/-!
DEFINITION. The word types of the machine, the triple of a pixel's three channels, a positive palette factor and one
kernel entry.
-/

namespace Sys2Proof

/-- A `u8`: one cell of the pixel buffer, one stored channel (R6, R11). -/
abbrev Byte := BitVec 8

/-- A `u16`: the stored part of `WIDTH` and `HEIGHT` (R12), the `FAC` field and the factor latch (R15, R52). -/
abbrev Half := BitVec 16

/-- A `u32`: a register-port word or a command word (R20, R50). -/
abbrev Word := BitVec 32

/-- One value per channel, in the order R, G, B (R6, R106). -/
structure Rgb (α : Type) where
  r : α
  g : α
  b : α
deriving DecidableEq, Repr

/-- The three lanes computed independently (R106). -/
def Rgb.map {α β : Type} (f : α → β) (p : Rgb α) : Rgb β := ⟨f p.r, f p.g, f p.b⟩

/-- Two triples combined lane by lane (R106). -/
def Rgb.zip {α β γ : Type} (f : α → β → γ) (p : Rgb α) (q : Rgb β) : Rgb γ := ⟨f p.r q.r, f p.g q.g, f p.b q.b⟩

/-- A stored pixel: three `u8` (R8, R11). -/
abbrev Pixel := Rgb Byte

/-- A palette factor: a positive integer. The quantizer is given no value at 0 (R82, 93 U1). -/
structure Factor where
  val : Nat
  pos : 0 < val
deriving DecidableEq, Repr

/-- One entry of the diffusion kernel: an offset and a numerator over 16 (R14). -/
structure KernelEntry where
  dx : Int
  dy : Int
  p : Int
deriving DecidableEq, Repr

end Sys2Proof
end

