-- ==== Sys2Proof/Syntax.lean ====
section
/-!
DEFINITION. The instructions: the two host commands of spec/opcode_table.json (R53).
-/

namespace Sys2Proof

/-- One constructor per row of spec/opcode_table.json. -/
inductive Instr where
  /-- `GRAY`, the Grayscale Converter (R70). -/
  | gray
  /-- `DITHER F`, the Error Diffusion Engine, with its palette factor (R90). -/
  | dither (f : Half)
deriving DecidableEq, Repr

end Sys2Proof
end

