-- ==== Sys2Proof/WellFormed.lean ====
section
/-!
DEFINITION. Which instruction terms are legal commands.
-/

namespace Sys2Proof

/-- `GRAY` has no operand; `DITHER F` needs `F != 0` (R53). -/
def Instr.wellFormed : Instr → Bool
  | .gray => true
  | .dither f => f != 0

end Sys2Proof
end

