-- ==== Sys2Proof/Decode.lean ====
section
/-!
DEFINITION. Decoding of the 32-bit command word, total and rejecting by name (R50 to R55), and after it the encoder,
written from the same format C.
-/

namespace Sys2Proof

/-- `OPC`, bits 31:24 of format C (R51). -/
def opcField (w : Word) : Byte := w.extractLsb' 24 8

/-- `RSV`, bits 23:16 of format C (R51). -/
def rsvField (w : Word) : Byte := w.extractLsb' 16 8

/-- `FAC`, bits 15:0 of format C: the only immediate, unsigned, used as it stands (R51, R52). -/
def facField (w : Word) : Half := w.extractLsb' 0 16

/-- The opcode of `GRAY` (R53). -/
def grayOpcode : Byte := 0x01

/-- The opcode of `DITHER` (R53). -/
def ditherOpcode : Byte := 0x02

/-- What a command word is (R55): a legal command, the `DITHER` word with factor 0, or a reserved word. -/
inductive Decoded where
  | instr (i : Instr)
  | badFactor
  | reserved
deriving DecidableEq, Repr

/-- The total decode function (R55). -/
def decode (w : Word) : Decoded :=
  if opcField w = grayOpcode ∧ rsvField w = 0 ∧ facField w = 0 then .instr .gray
  else if opcField w = ditherOpcode ∧ rsvField w = 0 ∧ facField w ≠ 0 then .instr (.dither (facField w))
  else if opcField w = ditherOpcode ∧ rsvField w = 0 ∧ facField w = 0 then .badFactor
  else .reserved

/-- A command word from its three fields, the most significant first (R51). -/
def formatC (opc rsv : Byte) (fac : Half) : Word := (opc ++ rsv) ++ fac

/-- The word of an instruction (R53, R59): `RSV = 0`, and `FAC` the factor of `DITHER`, 0 for `GRAY`. -/
def encode : Instr → Word
  | .gray => formatC grayOpcode 0 0
  | .dither f => formatC ditherOpcode 0 f

/-- The instruction the decoder reads from a command word whose bits are `w`, bit 0 the least significant, every bit from
`nbits` up being 0. -/
def decodeTableWord (nbits w : Nat) : Option Instr :=
  match decode (BitVec.ofNat 32 (w % 2 ^ nbits)) with
  | .instr i => some i
  | .badFactor => none
  | .reserved => none

end Sys2Proof
end

