-- ==== Sys2Proof/Config.lean ====
section
/-!
DEFINITION. What an implementation fixes, and the free values: bytes the spec leaves unspecified. The free values have no
body, so whatever is proved holds for every value of them.
-/

namespace Sys2Proof

/-- `PB_BYTES` of the machine `State.reset` describes. The spec leaves the capacity OPEN (R5, decision D4); the step reads
it from State, so every statement about every state holds at every capacity. DESIGN CHOICE (log 1, unsafe): 64, the
capacity of the spec's own programs (95_test_vectors.md Part 3). -/
def Config.pbBytes : Nat := 64

/-- `F_DEFAULT`: the factor of `DITHER` without operand (R5, R60). -/
def Config.defaultFactor : Nat := 4

/-- What the byte at an address reads as while nothing has written it: "some value in [0,255] ... the same value at every
read until the byte is written" (R152, 93 U6). The first argument counts the resets that have made the byte unspecified
anew (R153). Free value (log 5, log 6). -/
opaque Config.unwrittenByte : Nat → Nat → Byte

/-- The byte a buffer-port read returns while the engine owns the buffer (R126, 93 U8), by the number of the draw.
Free value (log 7). -/
opaque Config.busyByte : Nat → Byte

end Sys2Proof
end

