-- ==== Sys2Proof/Machine/State.lean ====
section
/-!
DEFINITION. The state of the machine as plain data, the outside world's turns, the reasons a step can stop, and the state
after power-up.
-/

namespace Sys2Proof.Machine

/-- The five stored bits of `STATUS` (R18). `BUSY` is a view of `RUN` and bits 31:6 read 0, so neither is stored. -/
structure Status where
  done : Bool
  errOp : Bool
  errFactor : Bool
  errDim : Bool
  errBusy : Bool
deriving DecidableEq, Repr

/-- The four sticky error flags, one per cause of a refusal (R18, R121). -/
inductive ErrFlag where
  | errOp
  | errFactor
  | errDim
  | errBusy
deriving DecidableEq, Repr

/-- The run state `RUN` (R15). -/
inductive Run where
  | idle
  | gray
  | dither
deriving DecidableEq, Repr

/-- The scan cursor `CUR`: a position, or END (R13). Coordinates are mathematical integers, never negative (log 14). -/
inductive Cursor where
  | pos (x y : Nat)
  | ended
deriving DecidableEq, Repr

/-- One atomic host move (R61, R136): a register-port write or read at a byte offset, a buffer-port write or read of one
byte. Offsets and addresses are natural numbers (log 19). -/
inductive Transaction where
  | wr (offset : Nat) (w : Word)
  | rd (offset : Nat)
  | pbw (addr : Nat) (v : Byte)
  | pbr (addr : Nat)
deriving DecidableEq, Repr

/-- Whose turn it is (R136, log 2): the host makes one transaction, the engine takes one step if it has one, the host
waits for `BUSY = 0` (R61 `WAIT`), or reset occurs (R150). -/
inductive Turn where
  | host (t : Transaction)
  | engine
  | wait
  | reset
deriving DecidableEq, Repr

/-- The whole state. The fields from `pb` to `fl` are the tuple of R10. -/
structure State where
  /-- `PB_BYTES`, the capacity of the buffer memory: a parameter, changed by no step (R5, log 1). -/
  pbBytes : Nat
  /-- `PB`: the bytes that have been written, by strictly rising address (R11, log 5). -/
  pb : List Host.Cell
  /-- The model's own (log 6): for each reset that cut a pass, how many image bytes it left unspecified (R153). -/
  lost : List Nat
  /-- `WIDTH`, bits 15:0 (R12). -/
  width : Half
  /-- `HEIGHT`, bits 15:0 (R12). -/
  height : Half
  /-- `STATUS`, its stored bits (R18). -/
  status : Status
  /-- `RUN` (R15). -/
  run : Run
  /-- `CUR` (R13). -/
  cur : Cursor
  /-- `FL`, the factor latch (R15). -/
  fl : Half
  /-- The model's own (log 2): the turns still to come, the next one first. When there are none, the engine goes on alone. -/
  turns : List Turn
  /-- The model's own (log 9): the number the host's latest read returned, none before its first read. -/
  hostData : Option Word
  /-- The model's own (log 7): how many unspecified bytes have been drawn by buffer-port reads while busy. -/
  draws : Nat
deriving DecidableEq, Repr

/-- Why a step can stop with a fault. Every one is raised by the engine's visit and only in a state that no run reaches
(log 13): safe. -/
inductive Fault where
  /-- Raised by a visit when `3*W*H > PB_BYTES`, so that the image has bytes that do not exist; acceptance excludes it
  (R125). Safe. -/
  | imageBeyondBuffer
  /-- Raised by a visit when the cursor is outside the running command's domain, where the visit is not defined (R71,
  R93). Safe. -/
  | cursorOutside
  /-- Raised by a dither visit when the latched factor is 0: the quantizer has no value there (R82, 93 U1). Safe. -/
  | zeroFactor
deriving DecidableEq, Repr

/-- Why a step can be refused. -/
inductive Refusal where
  /-- Raised by a dispatch arm whose instruction has no meaning yet; no arm of this model does. Safe. -/
  | notModelled (mnemonic : String)
deriving DecidableEq, Repr

/-- The outcome of a meaning. -/
abbrev Outcome := Host.Outcome State Fault Refusal

/-- Every stored bit of `STATUS` is 0 after reset (R18, R24). -/
def Status.reset : Status := ⟨false, false, false, false, false⟩

/-- The machine after power-up with a buffer memory of `capacity` bytes: every byte of `PB` unspecified (R151, so none is
listed), nothing for the outside world to do yet. DESIGN CHOICE (log 23, unsafe): the registers hold the values of R24
already at power-up, which the spec states only after a reset (R24, R150). -/
def State.powerUp (capacity : Nat) : State where
  pbBytes := capacity
  pb := []
  lost := []
  width := 0
  height := 0
  status := .reset
  run := .idle
  cur := .ended
  fl := 0
  turns := []
  hostData := none
  draws := 0

/-- The machine right after reset (R24), with the capacity of log 1: a reset that follows power-up changes nothing more. -/
def State.reset : State := .powerUp Config.pbBytes

end Sys2Proof.Machine
end

