-- ==== Sys2Proof/Machine/Flags.lean ====
section
/-!
DEFINITION. The flags of `STATUS`: how one is set, the word a read returns, and write-1-to-clear (R18).
-/

namespace Sys2Proof.Machine

/-- `flag STATUS.X`: the sticky flag becomes 1, the others stay (R8, R128). -/
def Status.raise (st : Status) (f : ErrFlag) : Status :=
  match f with
  | .errOp => { st with errOp := true }
  | .errFactor => { st with errFactor := true }
  | .errDim => { st with errDim := true }
  | .errBusy => { st with errBusy := true }

/-- `BUSY`: 1 exactly when `RUN != IDLE` (R18 bit 0). -/
def State.busy (s : State) : Bool := decide (s.run ≠ .idle)

/-- The word a read of `STATUS` returns: bits 31:6 are 0, then `ERR_BUSY`, `ERR_DIM`, `ERR_FACTOR`, `ERR_OP`, `DONE`,
`BUSY` (R18). -/
def statusWord (s : State) : Word :=
  (0 : BitVec 26) ++ BitVec.ofBool s.status.errBusy ++ BitVec.ofBool s.status.errDim ++ BitVec.ofBool s.status.errFactor
    ++ BitVec.ofBool s.status.errOp ++ BitVec.ofBool s.status.done ++ BitVec.ofBool s.busy

/-- A write of `w` to `STATUS` clears each of the bits 1 to 5 for which `w` has a 1 and leaves the others (R18). -/
def Status.clear (st : Status) (w : Word) : Status where
  done := st.done && !w.getLsbD 1
  errOp := st.errOp && !w.getLsbD 2
  errFactor := st.errFactor && !w.getLsbD 3
  errDim := st.errDim && !w.getLsbD 4
  errBusy := st.errBusy && !w.getLsbD 5

end Sys2Proof.Machine
end

