-- ==== Sys2Proof/Machine/Memory.lean ====
section
/-!
DEFINITION. The buffer memory as a list of written bytes in one canonical form, and the byte the buffer holds at an address.
-/

namespace Sys2Proof.Machine

/-- The canonical form: addresses strictly rising. A byte that is not listed has no value of its own (R152), so no entry can
equal what an unlisted address reads as and nothing else is asked. -/
abbrev Memory.wf (m : List Host.Cell) : Prop := m.Pairwise (fun c d => c.1 < d.1)

/-- The byte written at an address, if one was. -/
def Memory.get? (m : List Host.Cell) (a : Nat) : Option Byte :=
  match m with
  | [] => none
  | c :: rest => if c.1 = a then some c.2 else Memory.get? rest a

/-- Write of one byte. -/
def Memory.set (m : List Host.Cell) (a : Nat) (v : Byte) : List Host.Cell :=
  match m with
  | [] => [(a, v)]
  | c :: rest =>
    if a < c.1 then (a, v) :: c :: rest
    else if a = c.1 then (a, v) :: rest
    else c :: Memory.set rest a v

/-- The bytes below `n` become unwritten (R153). -/
def Memory.dropBelow (m : List Host.Cell) (n : Nat) : List Host.Cell := m.filter (fun c => decide (n ≤ c.1))

/-- How many resets that cut a pass have left the byte at `a` unspecified anew (R153, log 6). -/
def generation (lost : List Nat) (a : Nat) : Nat := lost.countP (fun n => decide (a < n))

/-- What an unlisted address reads as: a free value, the same until the byte is written (R152, 93 U6, log 5). -/
def State.unwritten (s : State) (a : Nat) : Byte := Config.unwrittenByte (generation s.lost a) a

/-- `MemRead(a, 1)`: the byte `PB` holds at `a` (R8, R33). -/
def State.byteAt (s : State) (a : Nat) : Byte := (Memory.get? s.pb a).getD (s.unwritten a)

/-- `MemWrite(a, 1, v)` (R8, R33). -/
def State.setByte (s : State) (a : Nat) (v : Byte) : State := { s with pb := Memory.set s.pb a v }

end Sys2Proof.Machine
end

