-- ==== Sys2Proof/Machine/Operands.lean ====
section
/-!
DEFINITION. Operand forms: the positions a command touches, their addresses, pixel accesses, the kernel, the processing
domains and the sequencing of the cursor.
-/

namespace Sys2Proof.Machine

/-- `W`, the image width in pixels (R12). -/
def State.w (s : State) : Nat := s.width.toNat

/-- `H`, the image height in pixels (R12). -/
def State.h (s : State) : Nat := s.height.toNat

/-- `3*W*H`, the number of bytes of the image, computed without wrapping (R31). -/
def State.imageBytes (s : State) : Nat := 3 * s.w * s.h

/-- `A(x, y, c)`, the linear address of channel `c` of the pixel at `(x, y)` of a `W`-wide image (R31). -/
def pixelAddr (w x y c : Nat) : Nat := 3 * (y * w + x) + c

/-- `PB[x,y]`: one pixel read, `MemRead(A(x,y,0), 3)` (R8, R33). -/
def State.readPixel (s : State) (x y : Nat) : Pixel :=
  ⟨s.byteAt (pixelAddr s.w x y 0), s.byteAt (pixelAddr s.w x y 1), s.byteAt (pixelAddr s.w x y 2)⟩

/-- `PB[x,y] <- p`: one pixel write, `MemWrite(A(x,y,0), 3, p)` (R8, R33). -/
def State.writePixel (s : State) (x y : Nat) (p : Pixel) : State :=
  ((s.setByte (pixelAddr s.w x y 0) p.r).setByte (pixelAddr s.w x y 1) p.g).setByte (pixelAddr s.w x y 2) p.b

/-- The diffusion kernel, in the order FSD lists it, which is the order the engine applies it (R14, R96). -/
def kernel : List KernelEntry := [⟨1, 0, 7⟩, ⟨-1, 1, 3⟩, ⟨0, 1, 5⟩, ⟨1, 1, 1⟩]

/-- `(tx, ty)` lies in `[0, W-1] x [0, H-1]`; the comparisons are made on mathematical integers (R6, R98). -/
def inImage (w h : Nat) (tx ty : Int) : Bool := 0 ≤ tx && tx ≤ (w : Int) - 1 && 0 ≤ ty && ty ≤ (h : Int) - 1

/-- `(x, y)` lies in `DOM(W, H)`: `1 <= x <= W-2` and `0 <= y <= H-2` (R91). -/
def inDomain (w h x y : Nat) : Bool := 1 ≤ x && (x : Int) ≤ (w : Int) - 2 && (y : Int) ≤ (h : Int) - 2

/-- `first_G` (R72). -/
def firstGray (w h : Nat) : Cursor := if 1 ≤ w ∧ 1 ≤ h then .pos 0 0 else .ended

/-- `next_G` (R72). -/
def nextGray (w h x y : Nat) : Cursor :=
  if x + 1 < w then .pos (x + 1) y
  else if y + 1 < h then .pos 0 (y + 1)
  else .ended

/-- `first_D` (R94). -/
def firstDither (w h : Nat) : Cursor := if 3 ≤ w ∧ 2 ≤ h then .pos 1 0 else .ended

/-- `next_D` (R94). -/
def nextDither (w h x y : Nat) : Cursor :=
  if (x : Int) + 1 ≤ (w : Int) - 2 then .pos (x + 1) y
  else if (y : Int) + 1 ≤ (h : Int) - 2 then .pos 1 (y + 1)
  else .ended

end Sys2Proof.Machine
end

