-- ==== Sys2Proof/Machine/Ops.lean ====
section
/-!
DEFINITION. The shared operations: refusing a request, accepting and issuing a command, retiring a pass, the reset event.
The hardware has no trap; a refusal is its analogue of taking an exception and clearing the flag the analogue of returning
from one (R128, R129).
-/

namespace Sys2Proof.Machine

/-- The state with these turns still to come. -/
def State.withTurns (s : State) (ts : List Turn) : State := { s with turns := ts }

/-- A refusal sets its flag and changes nothing else (R128). -/
def refuse (f : ErrFlag) (s : State) : State := { s with status := s.status.raise f }

/-- A host write of `w` to `STATUS`, in either mode: the analogue of the return from an exception (R18, R129). -/
def clearFlags (w : Word) (s : State) : State := { s with status := s.status.clear w }

/-- Acceptance: `DONE <- 0`, and `RUN`, `CUR` and `FL` as the command says (R56 arm 5). -/
def accept (run : Run) (first : Cursor) (factor : Half) (s : State) : State :=
  { s with status := { s.status with done := false }, run := run, cur := first, fl := factor }

/-- The arms of R56 that a well-formed command can take: refused while busy, refused when the image does not fit the
memory, else accepted. -/
def issue (run : Run) (first : Cursor) (factor : Half) (s : State) : State :=
  if s.run ≠ .idle then refuse .errBusy s
  else if s.imageBytes > s.pbBytes then refuse .errDim s
  else accept run first factor s

/-- Retire: `RUN <- IDLE`, `STATUS.DONE <- 1`, and nothing else (R58). -/
def retire (s : State) : State := { s with run := .idle, status := { s.status with done := true } }

/-- The reset event, in either mode (R150): the registers as R24 says. `PB` is not written (R151), but the image bytes of
a pass that it cuts become unspecified, the bytes above keep their values (R153). -/
def resetEvent (s : State) : State :=
  { s with
    pb := if s.run = .idle then s.pb else Memory.dropBelow s.pb s.imageBytes
    lost := if s.run = .idle then s.lost else s.imageBytes :: s.lost
    width := 0, height := 0, status := .reset, run := .idle, cur := .ended, fl := 0 }

end Sys2Proof.Machine
end

