-- ==== Sys2Proof/Machine/Quantizer.lean ====
section
/-!
DEFINITION. Division, and the Channel Quantizer: the function unit that a dither visit uses once per channel (R7, R80).
-/

namespace Sys2Proof.Machine

/-- `tdiv(a, b)`: integer division truncating toward zero (R7). -/
def tdiv (a b : Int) : Int := Int.tdiv a b

/-- `QLEVEL(v, F)`: the product is formed first and exactly, divided by 255 with truncation, and only then multiplied by the
separately truncated spacing (R80, R81). -/
def qlevel (v : Byte) (f : Factor) : Int :=
  let a := (f.val : Int) * (v.toNat : Int)
  let k := tdiv a 255
  let sp := tdiv 255 (f.val : Int)
  k * sp

/-- The factor held in the latch, where it is one: 0 is none (R15, R82). -/
def factorOf (fl : Half) : Option Factor := if h : 0 < fl.toNat then some ⟨fl.toNat, h⟩ else none

end Sys2Proof.Machine
end

