-- ==== Sys2Proof/Machine/Dither.lean ====
section
/-!
DEFINITION. The Error Diffusion Engine: the command `DITHER F`, the neighbour update, the pixel visit and the whole pass
(R90 to R101).
-/

namespace Sys2Proof.Machine

/-- `DITHER F`: issued, it latches `F` and starts a pass at `first_D` (R56, R90). A factor 0 is refused after the busy check
and before the dimension check (R123, R127); the decoder gives no such instruction. -/
def execDither (f : Half) (s : State) : Outcome :=
  if s.run = .idle ∧ f = 0 then .next (refuse .errFactor s)
  else .next (issue .dither (firstDither s.w s.h) f s)

/-- The channels of a stored pixel as mathematical integers (R6). -/
def toInts (p : Pixel) : Rgb Int := p.map (fun v => (v.toNat : Int))

/-- A triple stored as a pixel; used only for triples in [0,255] (R8). -/
def storedPixel (t : Rgb Int) : Pixel := t.map (BitVec.ofInt 8)

/-- All three channels lie in the representable range [0,255] (R98, decision D5). -/
def representable (t : Rgb Int) : Bool :=
  (0 ≤ t.r && t.r ≤ 255) && (0 ≤ t.g && t.g ≤ 255) && (0 ≤ t.b && t.b ≤ 255)

/-- `SUM[c] = n[c] + tdiv(ERR[c] * p, 16)`: product first, then the truncating division, not clamped (R98, R99). -/
def diffusedSum (err : Rgb Int) (p : Int) (n : Pixel) : Rgb Int := (toInts n).zip (fun v e => v + tdiv (e * p) 16) err

/-- `neighbour_update(tx, ty, p)`: a target outside the image, or a triple with any sum outside [0,255], is skipped without
a trace (R98, R101). -/
def neighbourUpdate (err : Rgb Int) (p tx ty : Int) (s : State) : State :=
  if inImage s.w s.h tx ty then
    let sum := diffusedSum err p (s.readPixel tx.toNat ty.toNat)
    if representable sum then s.writePixel tx.toNat ty.toNat (storedPixel sum) else s
  else s

/-- `NEW[c] = QLEVEL(OLD[c], F)`, per channel (R93 step 2). -/
def quantized (f : Factor) (old : Pixel) : Rgb Int := old.map (fun v => qlevel v f)

/-- `ERR[c] = OLD[c] - NEW[c]`, signed (R93 step 3). -/
def quantError (f : Factor) (old : Pixel) : Rgb Int := (toInts old).zip (fun o n => o - n) (quantized f old)

/-- Step 5 over a list of kernel entries: the updates one after another (R93, R96). -/
def diffuse (ks : List KernelEntry) (err : Rgb Int) (x y : Nat) (s : State) : State :=
  ks.foldl (fun s k => neighbourUpdate err k.p ((x : Int) + k.dx) ((y : Int) + k.dy) s) s

/-- Steps 1 to 5 of a dither visit, with the kernel as an argument (R93). -/
def ditherPixelOver (ks : List KernelEntry) (f : Factor) (x y : Nat) (s : State) : State :=
  let old := s.readPixel x y
  diffuse ks (quantError f old) x y (s.writePixel x y (storedPixel (quantized f old)))

/-- Steps 1 to 5 of `dither_visit(x, y)` (R93). -/
def ditherPixel (f : Factor) (x y : Nat) (s : State) : State := ditherPixelOver kernel f x y s

/-- One engine step of a `DITHER` pass: `dither_visit(x, y)` with `F = FL`, then `CUR <- next_D(x, y)` (R57, R93, R94). -/
def ditherVisit (x y : Nat) (s : State) : Outcome :=
  if s.imageBytes > s.pbBytes then .fault .imageBeyondBuffer
  else if inDomain s.w s.h x y then
    match factorOf s.fl with
    | some f => .next { ditherPixel f x y s with cur := nextDither s.w s.h x y }
    | none => .fault .zeroFactor
  else .fault .cursorOutside

/-- `dither_pass`, the big-step meaning: rows 0 to H-2, in each the columns 1 to W-2 (R90). -/
def ditherPass (f : Factor) (s : State) : State :=
  (List.range (s.h - 1)).foldl
    (fun t y => (List.range (s.w - 2)).foldl (fun t i => ditherPixel f (i + 1) y t) t) s

end Sys2Proof.Machine
end

