-- ==== Sys2Proof/Machine/Gray.lean ====
section
/-!
DEFINITION. The Grayscale Converter: the command `GRAY`, its pixel visit and its whole pass (R70 to R72).
-/

namespace Sys2Proof.Machine

/-- `GRAY`: issued, it starts a pass at `first_G` and leaves `FL` as it is (R56, R15). The pass itself is the engine's steps
(R57). -/
def execGray (s : State) : Outcome := .next (issue .gray (firstGray s.w s.h) s.fl s)

/-- `M = tdiv(R + G + B, 3)`, in all three channels (R71). -/
def grayOf (p : Pixel) : Pixel :=
  let sum : Int := (p.r.toNat : Int) + (p.g.toNat : Int) + (p.b.toNat : Int)
  let m : Byte := BitVec.ofInt 8 (tdiv sum 3)
  ⟨m, m, m⟩

/-- The buffer accesses of `gray_visit(x, y)`: one pixel read, one pixel write (R71). -/
def grayPixel (x y : Nat) (s : State) : State := s.writePixel x y (grayOf (s.readPixel x y))

/-- One engine step of a `GRAY` pass: `gray_visit(x, y)`, then `CUR <- next_G(x, y)` (R57, R71, R72). -/
def grayVisit (x y : Nat) (s : State) : Outcome :=
  if s.imageBytes > s.pbBytes then .fault .imageBeyondBuffer
  else if inImage s.w s.h x y then .next { grayPixel x y s with cur := nextGray s.w s.h x y }
  else .fault .cursorOutside

/-- `gray_pass`, the big-step meaning: every position of the image in raster order (R70). -/
def grayPass (s : State) : State :=
  (List.range s.h).foldl (fun t y => (List.range s.w).foldl (fun t x => grayPixel x y t) t) s

end Sys2Proof.Machine
end

