-- ==== Sys2Proof/Machine/Dispatch.lean ====
section
/-!
DEFINITION. The dispatch of an instruction to its meaning: the effect of writing its word to `CMD` (R56).
-/

namespace Sys2Proof.Machine

def exec (i : Instr) (s : State) : Host.Outcome State Fault Refusal :=
  match i with
  | .gray => Sys2Proof.Machine.execGray s
  | .dither f => Sys2Proof.Machine.execDither f s

end Sys2Proof.Machine
end

