-- ==== Sys2Proof/Machine/Port.lean ====
section
/-!
DEFINITION. The host's two ports: the register port with its register map, and the buffer port with the ownership lock
(R12, R18 to R21, R33 to R35, R126).
-/

namespace Sys2Proof.Machine

/-- The register map of the register port; every other offset is reserved (R20, R21). -/
inductive PortReg where
  | cmd
  | status
  | width
  | height
deriving DecidableEq, Repr

/-- The register at a byte offset (R20). -/
def regAt (offset : Nat) : Option PortReg :=
  if offset = 0x00 then some .cmd
  else if offset = 0x04 then some .status
  else if offset = 0x08 then some .width
  else if offset = 0x0C then some .height
  else none

/-- The number a register-port read returns: `CMD` and reserved offsets read 0 (R12, R18, R19, R21). -/
def regRead (offset : Nat) (s : State) : Word :=
  match regAt offset with
  | some .cmd => 0
  | some .status => statusWord s
  | some .width => s.width.setWidth 32
  | some .height => s.height.setWidth 32
  | none => 0

/-- The host receives the number a read returned (log 9). -/
def answer (v : Word) (s : State) : State := { s with hostData := some v }

/-- A host write of `w` to `CMD`: the first of R56's conditions that holds. While busy the word is not decoded (R126). -/
def writeCmd (w : Word) (s : State) : Outcome :=
  if s.run ≠ .idle then .next (refuse .errBusy s)
  else match decode w with
    | .reserved => .next (refuse .errOp s)
    | .badFactor => .next (refuse .errFactor s)
    | .instr i => exec i s

/-- A host write to `WIDTH`: bits 31:16 are ignored; ignored with `ERR_BUSY` while busy (R12). -/
def writeWidth (w : Word) (s : State) : State :=
  if s.run ≠ .idle then refuse .errBusy s else { s with width := w.setWidth 16 }

/-- A host write to `HEIGHT`, as for `WIDTH` (R12). -/
def writeHeight (w : Word) (s : State) : State :=
  if s.run ≠ .idle then refuse .errBusy s else { s with height := w.setWidth 16 }

/-- A register-port write; a reserved offset ignores it, in either mode (R20, R21). -/
def regWrite (offset : Nat) (w : Word) (s : State) : Outcome :=
  match regAt offset with
  | some .cmd => writeCmd w s
  | some .status => .next (clearFlags w s)
  | some .width => .next (writeWidth w s)
  | some .height => .next (writeHeight w s)
  | none => .next s

/-- A buffer-port write: ignored with `ERR_BUSY` while busy (R35, R126); outside the memory it is ignored without a flag
(R34). The lock is looked at first (DEDUCED, log 8). -/
def bufWrite (a : Nat) (v : Byte) (s : State) : State :=
  if s.run ≠ .idle then refuse .errBusy s
  else if a < s.pbBytes then s.setByte a v
  else s

/-- A buffer-port read: an unspecified byte and `ERR_BUSY` while busy (R35, R126, log 7); 0 outside the memory (R34). The
lock is looked at first (DEDUCED, log 8). -/
def bufRead (a : Nat) (s : State) : State :=
  if s.run ≠ .idle then
    answer ((Config.busyByte s.draws).setWidth 32) { refuse .errBusy s with draws := s.draws + 1 }
  else if a < s.pbBytes then answer ((s.byteAt a).setWidth 32) s
  else answer 0 s

/-- One atomic host transaction (R61, R136). -/
def transact (t : Transaction) (s : State) : Outcome :=
  match t with
  | .wr offset w => regWrite offset w s
  | .rd offset => .next (answer (regRead offset s) s)
  | .pbw a v => .next (bufWrite a v s)
  | .pbr a => .next (bufRead a s)

end Sys2Proof.Machine
end

