-- ==== Sys2Proof/Machine/Engine.lean ====
section
/-!
DEFINITION. The engine's step, and what each turn of the outside world does (R57, R136, R150).
-/

namespace Sys2Proof.Machine

/-- The engine's step, chosen by the state alone (R57). While `RUN = IDLE` it has none and nothing happens (log 3). -/
def engineStep (s : State) : Outcome :=
  match s.run, s.cur with
  | .idle, _ => .next s
  | .gray, .pos x y => grayVisit x y s
  | .gray, .ended => .next (retire s)
  | .dither, .pos x y => ditherVisit x y s
  | .dither, .ended => .next (retire s)

/-- One poll of `WAIT`: `RD STATUS`. While it reads `BUSY = 1` the host polls again after the engine's turn (R61; the
alternation is weak fairness, R136, log 10). -/
def waitPoll (s : State) : State :=
  let polled := answer (regRead 0x04 s) s
  if s.run = .idle then polled else polled.withTurns (.engine :: .wait :: s.turns)

/-- One turn (R136). -/
def takeTurn (t : Turn) (s : State) : Outcome :=
  match t with
  | .host tr => transact tr s
  | .engine => engineStep s
  | .wait => .next (waitPoll s)
  | .reset => .next (resetEvent s)

/-- The state with a command word placed before the machine: the host's next transaction writes it to `CMD` (R19). -/
def withCommandWord (s : State) (w : Word) : State :=
  s.withTurns (.host (.wr 0x00 w) :: s.turns)

end Sys2Proof.Machine
end

