-- ==== Sys2Proof/Machine/Step.lean ====
section
/-!
DEFINITION. One step of the machine: the next turn is taken; with no turn left the engine goes on alone (log 2).
-/

namespace Sys2Proof.Machine

/-- One step (R136). -/
def step (s : State) : Host.Outcome State Fault Refusal :=
  match s.turns with
  | [] => engineStep s
  | t :: rest => takeTurn t (s.withTurns rest)

/-- The state with the command word of these bits as the next thing the machine runs. The block fetches no instruction
(R42): a command is the word the host writes to `CMD`, so the word is placed as the host's next transaction (log 4). -/
def State.withFetchWord (s : State) (nbits w : Nat) : State := withCommandWord s (BitVec.ofNat 32 (w % 2 ^ nbits))

end Sys2Proof.Machine
end

