-- ==== Sys2Proof/Machine/Script.lean ====
section
/-!
DEFINITION. The host-script notation: each statement and the turns it stands for (R59 to R61). Statements are terms, not
text: comments and number bases are the notation's surface only (log 17).
-/

namespace Sys2Proof.Machine

/-- A statement of a host script (R59, R60, R61). A register is given by its byte offset. -/
inductive Stmt where
  /-- `GRAY` -/
  | gray
  /-- `DITHER <F>` -/
  | dither (f : Int)
  /-- `DITHER` without operand -/
  | ditherDefault
  /-- `FSDITHER <F>` -/
  | fsdither (f : Int)
  /-- `FSDITHER` without operand -/
  | fsditherDefault
  /-- `CLRSTATUS` -/
  | clrStatus
  /-- `WR <reg>, <u32>` -/
  | wr (offset : Nat) (w : Word)
  /-- `RD <reg>` -/
  | rd (offset : Nat)
  /-- `PBW <addr>, <u8>` -/
  | pbw (addr : Nat) (v : Byte)
  /-- `PBR <addr>` -/
  | pbr (addr : Nat)
  /-- `LOAD <W>x<H>: <bytes...>` -/
  | load (w h : Word) (bytes : List Byte)
  /-- `WAIT` -/
  | wait
deriving DecidableEq, Repr

/-- The write of a command word to `CMD` (R59). -/
def cmdTurn (w : Word) : Turn := .host (.wr 0x00 w)

/-- The word of `DITHER F`: none, an assembler error, unless 1 <= F <= 65535 (R59). -/
def ditherWord (f : Int) : Option Word :=
  if 1 ≤ f ∧ f ≤ 65535 then some (encode (.dither (BitVec.ofInt 16 f))) else none

/-- One `PBW a, b` for each byte, from address `a` on (R61 `LOAD`). -/
def loadBytes (a : Nat) : List Byte → List Turn
  | [] => []
  | v :: rest => .host (.pbw a v) :: loadBytes (a + 1) rest

/-- `GRAY ; WAIT ; DITHER <F> ; WAIT` (R60 `FSDITHER`). -/
def fsditherTurns (f : Int) : Option (List Turn) :=
  (ditherWord f).map (fun w => [cmdTurn (encode .gray), .wait, cmdTurn w, .wait])

/-- The turns of one statement, none for an assembler error (R59 to R61). DESIGN CHOICE, where R60 and R61 are silent: an
`FSDITHER` whose operand is out of range assembles to nothing at all (log 17), and a `LOAD` assembles whatever the number of
its bytes and its two numbers are, each written by `WR` or `PBW` as it stands (log 22). -/
def assemble (st : Stmt) : Option (List Turn) :=
  match st with
  | .gray => some [cmdTurn (encode .gray)]
  | .dither f => (ditherWord f).map (fun w => [cmdTurn w])
  | .ditherDefault => (ditherWord Config.defaultFactor).map (fun w => [cmdTurn w])
  | .fsdither f => fsditherTurns f
  | .fsditherDefault => fsditherTurns Config.defaultFactor
  | .clrStatus => some [.host (.wr 0x04 0x3E)]
  | .wr offset w => some [.host (.wr offset w)]
  | .rd offset => some [.host (.rd offset)]
  | .pbw a v => some [.host (.pbw a v)]
  | .pbr a => some [.host (.pbr a)]
  | .load w h bytes => some (.host (.wr 0x08 w) :: .host (.wr 0x0C h) :: loadBytes 0 bytes)
  | .wait => some [.wait]

/-- The turns of a whole script, none if any statement is an assembler error. -/
def assembleAll : List Stmt → Option (List Turn)
  | [] => some []
  | st :: rest =>
    match assemble st, assembleAll rest with
    | some ts, some us => some (ts ++ us)
    | _, _ => none

/-- The machine with a script's turns before it. -/
def State.withScript (s : State) (ts : List Turn) : State := s.withTurns (ts ++ s.turns)

end Sys2Proof.Machine
end

