-- ==== Sys2Proof/Safety.lean ====
section
/-!
DEFINITION. What claims are stated in: the invariant of the state, what is left of a pass, the part of the state a pass
depends on, and images all of whose pixels are gray.
-/

namespace Sys2Proof.Machine

/-- The cursor is END or a position in the domain of the running command (R25 (b)). -/
def State.cursorInDomain (s : State) : Bool :=
  match s.run, s.cur with
  | .idle, _ => true
  | _, .ended => true
  | .gray, .pos x y => inImage s.w s.h x y
  | .dither, .pos x y => inDomain s.w s.h x y

/-- The invariant of every state a run reaches: R25, the canonical form of the memory, its bound (R11), and that the image
of a running command fits the memory (R56). -/
structure State.Inv (s : State) : Prop where
  memory_canonical : Memory.wf s.pb
  memory_bounded : ∀ c ∈ s.pb, c.1 < s.pbBytes
  image_fits : s.run ≠ .idle → s.imageBytes ≤ s.pbBytes
  cursor_in_domain : s.cursorInDomain = true
  factor_positive : s.run = .dither → s.fl ≠ 0
  done_only_idle : s.status.done = true → s.run = .idle

/-- How many engine steps the pass in progress still takes, the retire step included (R58). -/
def State.stepsLeft (s : State) : Nat :=
  match s.run, s.cur with
  | .idle, _ => 0
  | _, .ended => 1
  | .gray, .pos x y => s.w * s.h - (y * s.w + x) + 1
  | .dither, .pos x y => (s.w - 2) * (s.h - 1) - (y * (s.w - 2) + (x - 1)) + 1

/-- The pass in progress is at the same point in both states: the buffer, the dimensions, `RUN`, `CUR` and `FL` agree. -/
def State.samePass (s t : State) : Prop :=
  s.pb = t.pb ∧ s.lost = t.lost ∧ s.pbBytes = t.pbBytes ∧ s.width = t.width ∧ s.height = t.height ∧
    s.run = t.run ∧ s.cur = t.cur ∧ s.fl = t.fl

/-- Every pixel of the image has `R = G = B` (R74, R106). -/
def State.grayImage (s : State) : Prop :=
  ∀ x y, x < s.w → y < s.h → (s.readPixel x y).r = (s.readPixel x y).g ∧ (s.readPixel x y).g = (s.readPixel x y).b

/-- `n` steps of the machine, stopping at the first fault or refusal. -/
def State.runFor (n : Nat) (s : State) : Outcome := Host.Core.run Sys2Proof.core n s

/-- The turn is no reset. -/
def Turn.isReset : Turn → Bool
  | .host _ => false
  | .engine => false
  | .wait => false
  | .reset => true

/-- A host write of the word `w` to `CMD` is the next turn. -/
def State.writesCmd (s : State) (w : Word) : Prop := s.turns.head? = some (.host (.wr 0x00 w))

/-- The engine has the next turn: it is given one, or nobody else has any left. -/
def State.engineNext (s : State) : Prop := s.turns = [] ∨ s.turns.head? = some .engine

/-- A host transaction, or the engine's turn: the turns that interleave while a pass runs (R136). -/
def Turn.hostOrEngine : Turn → Bool
  | .host _ => true
  | .engine => true
  | .wait => false
  | .reset => false

/-- The register-port and buffer-port accesses that are ignored while the engine owns the buffer (R126). -/
def Transaction.needsIdle : Transaction → Bool
  | .wr offset _ => offset = 0x00 || offset = 0x08 || offset = 0x0C
  | .rd _ => false
  | .pbw _ _ => true
  | .pbr _ => true

end Sys2Proof.Machine
end

