-- ==== Sys2Proof/Certificates/Slice0/Obligations.lean ====
section
/-!
DEFINITION. The statements for the provers. Each docstring names the rule or section of spec/ it formalises.
-/

open Sys2Proof Sys2Proof.Machine

/-! ### Encoding -/

/-- R55, whole: the four arms of `decode` in the fields of the word as numbers, and how many words fall in each. -/
def Obligations.DecodeIsTheTotalFunction : Prop :=
  (∀ w : Word,
    (w.toNat / 2 ^ 24 = 0x01 ∧ w.toNat / 2 ^ 16 % 2 ^ 8 = 0 ∧ w.toNat % 2 ^ 16 = 0 → decode w = .instr .gray) ∧
    (w.toNat / 2 ^ 24 = 0x02 ∧ w.toNat / 2 ^ 16 % 2 ^ 8 = 0 ∧ w.toNat % 2 ^ 16 ≠ 0 →
      decode w = .instr (.dither (BitVec.ofNat 16 (w.toNat % 2 ^ 16)))) ∧
    (w.toNat / 2 ^ 24 = 0x02 ∧ w.toNat / 2 ^ 16 % 2 ^ 8 = 0 ∧ w.toNat % 2 ^ 16 = 0 → decode w = .badFactor) ∧
    (¬ (w.toNat / 2 ^ 24 = 0x01 ∧ w.toNat / 2 ^ 16 % 2 ^ 8 = 0 ∧ w.toNat % 2 ^ 16 = 0) →
      ¬ (w.toNat / 2 ^ 24 = 0x02 ∧ w.toNat / 2 ^ 16 % 2 ^ 8 = 0) → decode w = .reserved)) ∧
  (∃! w, decode w = .instr .gray) ∧
  (∀ f : Half, f ≠ 0 → ∃! w, decode w = .instr (.dither f)) ∧
  (∀ w, decode w ≠ .instr (.dither 0)) ∧
  (∃! w, decode w = .badFactor)

/-- 30_encoding.md sections 1 and 3: decoding the word of a well-formed instruction gives it back, and a word that decodes
to an instruction is that instruction's word and the instruction is well-formed. -/
def Obligations.DecodeEncodeRoundTrip : Prop :=
  (∀ i : Instr, i.wellFormed = true → decode (encode i) = .instr i) ∧
  (∀ (w : Word) (i : Instr), decode w = .instr i → i.wellFormed = true ∧ encode i = w)

/-- 95_test_vectors.md V-E: words written out from format C decode as the table says. -/
def Obligations.WrittenWordsDecode : Prop :=
  decode 0b00000001_00000000_0000000000000000 = .instr .gray ∧
  decode 0b00000010_00000000_0000000000000100 = .instr (.dither 4) ∧
  decode 0b00000010_00000000_1111111111111111 = .instr (.dither 65535) ∧
  decode 0b00000010_00000000_0000000000000000 = .badFactor ∧
  decode 0b00000001_00000000_0000000000000100 = .reserved ∧
  decode 0b00000010_00000001_0000000000000000 = .reserved ∧
  decode 0 = .reserved ∧ decode 0xFFFFFFFF = .reserved

/-! ### Steps and commands -/

/-- 30_encoding.md section 4: when the host's next transaction writes to `CMD` a word that decodes to an instruction, the
step is that instruction's execution on the state without that transaction, in either mode; and the word of a well-formed
instruction placed by `withFetchWord` is run by the very next step. (That a program's word is placed as the host's next write
to `CMD` is the model's choice: log 4. The second clause rests on it.) -/
def Obligations.StepRunsTheWrittenCommand : Prop :=
  (∀ (s : State) (w : Word) (rest : List Turn) (i : Instr),
    s.turns = .host (.wr 0x00 w) :: rest → decode w = .instr i → step s = exec i { s with turns := rest }) ∧
  (∀ (s : State) (i : Instr), i.wellFormed = true → step (s.withFetchWord 32 (encode i).toNat) = exec i s)

/-- 30_encoding.md section 4 (acceptance, arm 5) and 40_grayscale.md section 2: while idle, with the image inside the
memory, `GRAY` is accepted: `DONE` is cleared, `RUN` is GRAY, the cursor is the first position of the image or END for an
empty one, and everything else is as before. -/
def Obligations.GrayCommandIsAccepted : Prop :=
  ∀ s : State, s.run = .idle → 3 * s.width.toNat * s.height.toNat ≤ s.pbBytes →
    exec .gray s = .next
      { s with
        status := { s.status with done := false }
        run := .gray
        cur := if 1 ≤ s.width.toNat ∧ 1 ≤ s.height.toNat then .pos 0 0 else .ended }

/-- 30_encoding.md section 4 (acceptance, arm 5) and 42_diffusion.md section 2: while idle, with the image inside the
memory, `DITHER F` with `F != 0` is accepted: `DONE` is cleared, `RUN` is DITHER, the factor is latched, the cursor is the
first position of the domain or END for an empty one, and everything else is as before. -/
def Obligations.DitherCommandIsAccepted : Prop :=
  ∀ (s : State) (f : Half), s.run = .idle → f ≠ 0 → 3 * s.width.toNat * s.height.toNat ≤ s.pbBytes →
    exec (.dither f) s = .next
      { s with
        status := { s.status with done := false }
        run := .dither
        fl := f
        cur := if 3 ≤ s.width.toNat ∧ 2 ≤ s.height.toNat then .pos 1 0 else .ended }

/-- R124 and R125, whole, and 60_exceptions.md section 3: the refusals of a write to `CMD`, in their order; each sets exactly
its flag. -/
def Obligations.CommandWriteRefusals : Prop :=
  ∀ (s : State) (w : Word) (rest : List Turn), s.turns = .host (.wr 0x00 w) :: rest →
    (s.run ≠ .idle → step s = .next { s with turns := rest, status := { s.status with errBusy := true } }) ∧
    (s.run = .idle → decode w = .reserved →
      step s = .next { s with turns := rest, status := { s.status with errOp := true } }) ∧
    (s.run = .idle → decode w = .badFactor →
      step s = .next { s with turns := rest, status := { s.status with errFactor := true } }) ∧
    (∀ i, s.run = .idle → decode w = .instr i → s.pbBytes < 3 * s.width.toNat * s.height.toNat →
      step s = .next { s with turns := rest, status := { s.status with errDim := true } })

/-- R128, whole: a refused write to `CMD` changes exactly one flag, to 1; and whether a command is accepted, and the pass it
starts, do not depend on the flags. (The turn itself, in `turns`, is the model's own input: log 2.) -/
def Obligations.RefusalChangesOneFlag : Prop :=
  ∀ (s : State) (w : Word) (rest : List Turn), s.turns = .host (.wr 0x00 w) :: rest →
    (¬ (s.run = .idle ∧ (∃ i, decode w = .instr i) ∧ 3 * s.width.toNat * s.height.toNat ≤ s.pbBytes) →
      ∃ f, step s = .next { s with turns := rest, status := s.status.raise f }) ∧
    (∀ st : Status, ∃ t u, step s = .next t ∧ step { s with status := st } = .next u ∧
      u.run = t.run ∧ u.cur = t.cur ∧ u.fl = t.fl ∧ u.pb = t.pb)

/-- 10_state.md R15, R16 and 30_encoding.md section 4: the frame of the two commands. Executing one leaves the buffer, the
dimensions, the capacity and the host's data as they were; only `DITHER` may write `FL`; each flag either stays, or `DONE`
is cleared, or one error flag is set. -/
def Obligations.CommandFrame : Prop :=
  ∀ (i : Instr) (s t : State), exec i s = .next t →
    (∀ a, t.byteAt a = s.byteAt a) ∧ t.pb = s.pb ∧ t.lost = s.lost ∧ t.pbBytes = s.pbBytes ∧
    t.width = s.width ∧ t.height = s.height ∧ t.turns = s.turns ∧ t.hostData = s.hostData ∧ t.draws = s.draws ∧
    (i = .gray → t.fl = s.fl) ∧
    (t.status = { s.status with done := false } ∨
      ∃ f, t.status = s.status.raise f ∧ t.run = s.run ∧ t.cur = s.cur ∧ t.fl = s.fl)

/-! ### The register port -/

/-- R19, whole: `CMD` reads 0 with no effect, and a write of a command word to it is the only way to start an operation. -/
def Obligations.CmdIsWriteOnly : Prop :=
  (∀ (s : State) (rest : List Turn), s.turns = .host (.rd 0x00) :: rest →
    step s = .next { s with turns := rest, hostData := some 0 }) ∧
  (∀ s t : State, step s = .next t → s.run = .idle → t.run ≠ .idle →
    ∃ w i, s.writesCmd w ∧ decode w = .instr i)

/-- R12, whole: `WIDTH` and `HEIGHT` read as their 16 bits at any time, take the low 16 bits of a write while idle, ignore
it with `ERR_BUSY` while busy, are never written by the engine, and are 0 after reset. -/
def Obligations.DimensionRegisters : Prop :=
  (∀ (s : State) (rest : List Turn),
    (s.turns = .host (.rd 0x08) :: rest →
      step s = .next { s with turns := rest, hostData := some (BitVec.ofNat 32 s.width.toNat) }) ∧
    (s.turns = .host (.rd 0x0C) :: rest →
      step s = .next { s with turns := rest, hostData := some (BitVec.ofNat 32 s.height.toNat) })) ∧
  (∀ (s : State) (rest : List Turn) (w : Word), s.run = .idle →
    (s.turns = .host (.wr 0x08 w) :: rest →
      step s = .next { s with turns := rest, width := BitVec.ofNat 16 (w.toNat % 2 ^ 16) }) ∧
    (s.turns = .host (.wr 0x0C w) :: rest →
      step s = .next { s with turns := rest, height := BitVec.ofNat 16 (w.toNat % 2 ^ 16) })) ∧
  (∀ (s : State) (rest : List Turn) (w : Word), s.run ≠ .idle →
    s.turns = .host (.wr 0x08 w) :: rest ∨ s.turns = .host (.wr 0x0C w) :: rest →
      step s = .next { s with turns := rest, status := { s.status with errBusy := true } }) ∧
  (∀ s t : State, engineStep s = .next t → t.width = s.width ∧ t.height = s.height) ∧
  (∀ s : State, (resetEvent s).width = 0 ∧ (resetEvent s).height = 0) ∧
  State.reset.width = 0 ∧ State.reset.height = 0

/-- R21, whole: every reserved offset reads 0 and ignores writes, with no flag, in either mode; and what a register reads as
depends on `RUN`, `STATUS`, `WIDTH` and `HEIGHT` alone, so none exposes the cursor, the latch or the buffer. -/
def Obligations.ReservedOffsetsReadZero : Prop :=
  (∀ (s : State) (rest : List Turn) (o : Nat) (w : Word), 0x10 ≤ o ∨ o % 4 ≠ 0 →
    (s.turns = .host (.rd o) :: rest → step s = .next { s with turns := rest, hostData := some 0 }) ∧
    (s.turns = .host (.wr o w) :: rest → step s = .next { s with turns := rest })) ∧
  (∀ (s t : State) (o : Nat), s.run = t.run → s.status = t.status → s.width = t.width → s.height = t.height →
    regRead o s = regRead o t)

/-- 10_state.md section 3, the table of `STATUS`: what a read returns, bit by bit, in either mode, changing nothing of the
machine. -/
def Obligations.StatusReadsAsTheTable : Prop :=
  ∀ (s : State) (rest : List Turn), s.turns = .host (.rd 0x04) :: rest →
    ∃ v : Word, step s = .next { s with turns := rest, hostData := some v } ∧
      (v.getLsbD 0 = true ↔ s.run ≠ .idle) ∧ v.getLsbD 1 = s.status.done ∧ v.getLsbD 2 = s.status.errOp ∧
      v.getLsbD 3 = s.status.errFactor ∧ v.getLsbD 4 = s.status.errDim ∧ v.getLsbD 5 = s.status.errBusy ∧
      ∀ b, 6 ≤ b → v.getLsbD b = false

/-- R129, whole: a write to `STATUS` clears exactly the flags whose bit is 1 and leaves the others, in either mode; a flag
that is set again stays set and the others keep their values; nothing else but reset clears an error flag; it survives the
retire step; reset clears all. -/
def Obligations.FlagsAreStickyAndCleared : Prop :=
  (∀ (s : State) (rest : List Turn) (w : Word), s.turns = .host (.wr 0x04 w) :: rest →
    ∃ st, step s = .next { s with turns := rest, status := st } ∧
      (st.done = true ↔ s.status.done = true ∧ w.getLsbD 1 = false) ∧
      (st.errOp = true ↔ s.status.errOp = true ∧ w.getLsbD 2 = false) ∧
      (st.errFactor = true ↔ s.status.errFactor = true ∧ w.getLsbD 3 = false) ∧
      (st.errDim = true ↔ s.status.errDim = true ∧ w.getLsbD 4 = false) ∧
      (st.errBusy = true ↔ s.status.errBusy = true ∧ w.getLsbD 5 = false)) ∧
  (∀ (st : Status) (f : ErrFlag), (st.raise f).raise f = st.raise f) ∧
  (∀ (st : Status) (f g : ErrFlag), (st.raise f).raise g = (st.raise g).raise f) ∧
  (∀ s t : State, step s = .next t → s.turns.head? ≠ some .reset → (∀ w, s.turns.head? ≠ some (.host (.wr 0x04 w))) →
    (s.status.errOp = true → t.status.errOp = true) ∧ (s.status.errFactor = true → t.status.errFactor = true) ∧
    (s.status.errDim = true → t.status.errDim = true) ∧ (s.status.errBusy = true → t.status.errBusy = true)) ∧
  (∀ s t : State, s.run ≠ .idle → s.cur = .ended → s.engineNext → step s = .next t →
    t.status = { s.status with done := true }) ∧
  (∀ s t : State, s.turns.head? = some .reset → step s = .next t → t.status = ⟨false, false, false, false, false⟩)

/-- 10_state.md section 3 and 60_exceptions.md section 1: a flag rises only by its cause. -/
def Obligations.FlagsRiseOnlyByTheirCause : Prop :=
  ∀ s t : State, step s = .next t →
    (t.status.errOp = true → s.status.errOp = false →
      s.run = .idle ∧ ∃ w, s.writesCmd w ∧ decode w = .reserved) ∧
    (t.status.errFactor = true → s.status.errFactor = false →
      s.run = .idle ∧ ∃ w, s.writesCmd w ∧ decode w = .badFactor) ∧
    (t.status.errDim = true → s.status.errDim = false →
      s.run = .idle ∧ s.pbBytes < 3 * s.width.toNat * s.height.toNat ∧ ∃ w i, s.writesCmd w ∧ decode w = .instr i) ∧
    (t.status.errBusy = true → s.status.errBusy = false →
      s.run ≠ .idle ∧ ∃ tr, s.turns.head? = some (.host tr) ∧ tr.needsIdle = true) ∧
    (t.status.done = true → s.status.done = false → s.run ≠ .idle ∧ s.cur = .ended ∧ s.engineNext)

/-- 10_state.md section 7: the flags are read by nothing inside the machine. Two states that differ only in the stored bits
of `STATUS` step to states that differ only in those bits and in what the host has read, or stop alike. -/
def Obligations.FlagsAreReadByNothing : Prop :=
  ∀ (s : State) (st : Status),
    (∀ t, step s = .next t → ∃ u, step { s with status := st } = .next u ∧
      { u with status := t.status, hostData := t.hostData } = t) ∧
    (∀ r, step s = .fault r → step { s with status := st } = .fault r)

/-! ### The buffer -/

/-- R31, whole: the addresses of the channels of a `W` x `H` image, `3 * (y * W + x) + c`, are exactly 0 to `3*W*H - 1`,
each once, and below 2^34; the bytes of a pixel read are those at its three addresses, R first. -/
def Obligations.ChannelAddressesTileTheImage : Prop :=
  (∀ w x y c, pixelAddr w x y c = 3 * (y * w + x) + c) ∧
  (∀ w h a : Nat, a < 3 * w * h ↔ ∃ x y c, x < w ∧ y < h ∧ c < 3 ∧ a = pixelAddr w x y c) ∧
  (∀ w x y c x' y' c' : Nat, x < w → x' < w → c < 3 → c' < 3 → pixelAddr w x y c = pixelAddr w x' y' c' →
    x = x' ∧ y = y' ∧ c = c') ∧
  (∀ (w h : Half) (x y c : Nat), x < w.toNat → y < h.toNat → c < 3 → pixelAddr w.toNat x y c < 2 ^ 34) ∧
  (∀ (s : State) (x y : Nat),
    s.readPixel x y = ⟨s.byteAt (3 * (y * s.width.toNat + x)), s.byteAt (3 * (y * s.width.toNat + x) + 1),
      s.byteAt (3 * (y * s.width.toNat + x) + 2)⟩)

/-- 20_memory.md section 3, the host's buffer port while idle: a write changes the one byte it names, a read returns it;
outside the memory a write is ignored and a read returns 0, and no flag is set. -/
def Obligations.BufferPortWhileIdle : Prop :=
  ∀ (s : State) (rest : List Turn) (a : Nat), s.run = .idle →
    (∀ v : Byte, s.turns = .host (.pbw a v) :: rest →
      (a < s.pbBytes → ∃ m, step s = .next { s with turns := rest, pb := m } ∧
        State.byteAt { s with turns := rest, pb := m } a = v ∧
        ∀ b, b ≠ a → State.byteAt { s with turns := rest, pb := m } b = s.byteAt b) ∧
      (s.pbBytes ≤ a → step s = .next { s with turns := rest })) ∧
    (s.turns = .host (.pbr a) :: rest →
      (a < s.pbBytes → step s = .next { s with turns := rest, hostData := some (BitVec.ofNat 32 (s.byteAt a).toNat) }) ∧
      (s.pbBytes ≤ a → step s = .next { s with turns := rest, hostData := some 0 }))

/-- 60_exceptions.md section 2 and 20_memory.md section 3: while busy, a write to `CMD`, `WIDTH` or `HEIGHT` and any buffer-port access are ignored with `ERR_BUSY`
and no other flag, a buffer-port read returning some byte; reads of the registers and writes of `STATUS` set nothing; and
the pass is where it was in every case. (The count of draws is the model's own: log 7. A buffer-port access beyond the
memory while busy is DEDUCED to be a busy violation: log 8.) -/
def Obligations.BusyViolationsAreIgnored : Prop :=
  ∀ (s : State) (tr : Transaction) (rest : List Turn), s.run ≠ .idle → s.turns = .host tr :: rest →
    (∀ o w, tr = .wr o w → o = 0x00 ∨ o = 0x08 ∨ o = 0x0C →
      step s = .next { s with turns := rest, status := { s.status with errBusy := true } }) ∧
    (∀ a v, tr = .pbw a v →
      step s = .next { s with turns := rest, status := { s.status with errBusy := true } }) ∧
    (∀ a, tr = .pbr a → ∃ b : Byte, step s = .next
      { s with turns := rest, status := { s.status with errBusy := true }, hostData := some (b.setWidth 32),
               draws := s.draws + 1 }) ∧
    (∀ o, tr = .rd o → ∃ v, step s = .next { s with turns := rest, hostData := some v }) ∧
    (∀ w, tr = .wr 0x04 w → step s = .next { s with turns := rest, status := s.status.clear w }) ∧
    (∃ t, step s = .next t ∧ s.samePass t ∧ t.turns = rest)

/-- 70_reset_and_hazards.md section 1 (unwritten bytes): a byte that nothing has written reads the same after every step
that is no reset, for as long as it stays unwritten. (That an unwritten byte reads as a free value rather than ending the
run is the model's choice: log 5.) -/
def Obligations.UnwrittenByteIsStable : Prop :=
  ∀ (s t : State) (a : Nat), step s = .next t → s.turns.head? ≠ some .reset →
    Memory.get? s.pb a = none → Memory.get? t.pb a = none → t.byteAt a = s.byteAt a

/-- 10_state.md section 2 and 20_memory.md section 1: the engine never changes a byte at `3*W*H` or above. -/
def Obligations.EngineStaysInsideTheImage : Prop :=
  ∀ s t : State, engineStep s = .next t → ∀ a, 3 * s.width.toNat * s.height.toNat ≤ a → t.byteAt a = s.byteAt a

/-! ### Passes and ownership -/

/-- 30_encoding.md section 4 (retire): the retire step, an empty domain accepted with the cursor at END, and the number of
engine steps of each pass, which the spec marks as its own inference: the machine is busy before each of them and idle after the last. -/
def Obligations.RetireAndStepCounts : Prop :=
  (∀ s : State, s.run ≠ .idle → s.cur = .ended → s.turns = [] →
    step s = .next { s with run := .idle, status := { s.status with done := true } }) ∧
  (∀ s t : State, exec .gray s = .next t → t.run ≠ s.run → (s.width = 0 ∨ s.height = 0) → t.cur = .ended) ∧
  (∀ (s t : State) (f : Half), exec (.dither f) s = .next t → t.run ≠ s.run →
    (s.width.toNat < 3 ∨ s.height.toNat < 2) → t.cur = .ended) ∧
  (∀ s t : State, s.run = .idle → s.turns = [] → exec .gray s = .next t → t.run = .gray →
    (∀ k, k ≤ s.width.toNat * s.height.toNat → ∃ u, t.runFor k = .next u ∧ u.run = .gray) ∧
    ∃ u, t.runFor (s.width.toNat * s.height.toNat + 1) = .next u ∧ u.run = .idle) ∧
  (∀ (s t : State) (f : Half), s.run = .idle → s.turns = [] → f ≠ 0 → exec (.dither f) s = .next t → t.run = .dither →
    (∀ k, k ≤ (s.width.toNat - 2) * (s.height.toNat - 1) → ∃ u, t.runFor k = .next u ∧ u.run = .dither) ∧
    ∃ u, t.runFor ((s.width.toNat - 2) * (s.height.toNat - 1) + 1) = .next u ∧ u.run = .idle)

/-- 60_exceptions.md section 5: the busy mode is left only by the retire step, which sets `DONE`, or by reset. -/
def Obligations.OnlyRetireOrResetEndsAPass : Prop :=
  ∀ s t : State, step s = .next t → s.run ≠ .idle → t.run ≠ s.run →
    t.run = .idle ∧ (s.turns.head? = some .reset ∨
      (s.cur = .ended ∧ s.engineNext ∧ t.status.done = true ∧ t.pb = s.pb))

/-- 10_state.md section 8 (d): the dimensions and the factor do not change while a pass runs; and the capacity never
changes. -/
def Obligations.PassParametersAreConstant : Prop :=
  ∀ s t : State, step s = .next t →
    t.pbBytes = s.pbBytes ∧
    (s.run ≠ .idle → s.turns.head? ≠ some .reset → t.width = s.width ∧ t.height = s.height ∧ t.fl = s.fl)

/-- 60_exceptions.md section 6: interleaving host transactions with the engine's turns cannot change what the pass computes.
As long as the pass is not over, after any such interleaving the pass is where the engine's steps alone would have brought
it. -/
def Obligations.InterleavingDoesNotChangeThePass : Prop :=
  ∀ (s : State) (ts : List Turn), s.Inv → (∀ t ∈ ts, t.hostOrEngine = true) → ts.count .engine < s.stepsLeft →
    ∃ t u, State.runFor ts.length { s with turns := ts } = .next t ∧
      State.runFor (ts.count .engine) { s with turns := [] } = .next u ∧ u.samePass t

/-- 60_exceptions.md section 6: in a state that meets the invariant the machine is never stuck: every turn has a next state.
While busy this is the spec's: the engine's step is always enabled. (That an idle machine has a next state when the turn is
the engine's, or when no turn is left, is the model's choice: log 3, log 2. The spec gives the engine no step then.) -/
def Obligations.MachineIsNeverStuck : Prop := ∀ s : State, s.Inv → ∃ t, step s = .next t

/-- 10_state.md section 8: the invariant is kept by every step, whoever's turn it is. -/
def Obligations.InvariantKeptByEveryStep : Prop := ∀ s t : State, s.Inv → step s = .next t → t.Inv

/-- 10_state.md section 8: the invariant holds after power-up, at every capacity, and of `State.reset`. (What the registers
hold at power-up is the model's choice: log 23.) -/
def Obligations.InvariantHoldsAtReset : Prop := (∀ capacity, (State.powerUp capacity).Inv) ∧ State.reset.Inv

/-- 30_encoding.md section 5 (`WAIT`) and 60_exceptions.md section 6: a `WAIT` ends, with the machine idle and the host's
last poll reading `BUSY = 0`. (That the engine has its turn after every poll is the model's choice of a fair order: log 10.) -/
def Obligations.WaitEnds : Prop :=
  ∀ (s : State) (rest : List Turn), s.Inv → s.turns = .wait :: rest →
    ∃ n t v, n ≤ 2 * s.stepsLeft + 1 ∧ s.runFor n = .next t ∧ t.turns = rest ∧ t.run = .idle ∧
      t.hostData = some v ∧ v.getLsbD 0 = false

/-! ### GRAY -/

/-- R71, whole: the gray visit as a step. The pixel's three channels become the truncated third of their sum, a number of at
most 255; no other byte changes; then the cursor moves on in raster order; nothing else changes. -/
def Obligations.GrayVisitResult : Prop :=
  ∀ (s : State) (x y : Nat), s.run = .gray → s.cur = .pos x y → s.turns = [] → x < s.width.toNat → y < s.height.toNat →
    3 * s.width.toNat * s.height.toNat ≤ s.pbBytes →
    ∃ t, step s = .next t ∧ t = { s with pb := t.pb, cur := t.cur } ∧
      (∀ c, c < 3 → (t.byteAt (pixelAddr s.width.toNat x y c)).toNat =
        ((s.byteAt (pixelAddr s.width.toNat x y 0)).toNat + (s.byteAt (pixelAddr s.width.toNat x y 1)).toNat +
          (s.byteAt (pixelAddr s.width.toNat x y 2)).toNat) / 3) ∧
      (∀ a, (∀ c, c < 3 → a ≠ pixelAddr s.width.toNat x y c) → t.byteAt a = s.byteAt a) ∧
      t.cur = (if x + 1 < s.width.toNat then .pos (x + 1) y else if y + 1 < s.height.toNat then .pos 0 (y + 1) else .ended)

/-- 40_grayscale.md section 2 (sequencing): the cursor of a `GRAY` pass takes the positions of the image in raster order,
each exactly once, and is then END for good. -/
def Obligations.GrayCursorIsRasterOrder : Prop :=
  ∀ w h k : Nat,
    (fun c => match c with | .pos x y => nextGray w h x y | .ended => Cursor.ended)^[k] (firstGray w h) =
      if k < w * h then .pos (k % w) (k / w) else .ended

/-- 30_encoding.md section 4 (dispatch, retire, big-step reading) and 40_grayscale.md section 1: an accepted `GRAY` runs to
completion in `W*H + 1` engine steps and leaves the machine as the big-step `gray_pass` says, idle, with `DONE` set. -/
def Obligations.GrayRunsItsBigStep : Prop :=
  ∀ s : State, s.run = .idle → s.turns = [] → 3 * s.width.toNat * s.height.toNat ≤ s.pbBytes →
    ∃ t, exec .gray s = .next t ∧
      t.runFor (s.width.toNat * s.height.toNat + 1) = .next
        { grayPass s with run := .idle, cur := .ended, status := { s.status with done := true } }

/-- 40_grayscale.md sections 1 and 3: after a gray pass every pixel of the image is its own truncated average in all three
channels, which lies between its least and greatest channel; every byte beyond the image, and everything but the buffer, is
as before. -/
def Obligations.GrayPassAverages : Prop :=
  ∀ s : State,
    (∀ x y, x < s.width.toNat → y < s.height.toNat →
      ∃ m, m = ((s.readPixel x y).r.toNat + (s.readPixel x y).g.toNat + (s.readPixel x y).b.toNat) / 3 ∧
        (∀ c, c < 3 → ((grayPass s).byteAt (pixelAddr s.width.toNat x y c)).toNat = m) ∧
        min (s.readPixel x y).r.toNat (min (s.readPixel x y).g.toNat (s.readPixel x y).b.toNat) ≤ m ∧
        m ≤ max (s.readPixel x y).r.toNat (max (s.readPixel x y).g.toNat (s.readPixel x y).b.toNat)) ∧
    (∀ a, 3 * s.width.toNat * s.height.toNat ≤ a → (grayPass s).byteAt a = s.byteAt a) ∧
    grayPass s = { s with pb := (grayPass s).pb }

/-- R73, whole: a gray pass over its own result changes no byte, and a gray pixel is its own average. -/
def Obligations.GrayPassIsIdempotent : Prop :=
  (∀ (s : State) (a : Nat), (grayPass (grayPass s)).byteAt a = (grayPass s).byteAt a) ∧
  (∀ m : Byte, grayOf ⟨m, m, m⟩ = ⟨m, m, m⟩)

/-- 40_grayscale.md section 2 (order not observable): visiting the positions of the image in any order gives the bytes of
the gray pass. -/
def Obligations.GrayOrderIsUnobservable : Prop :=
  ∀ (s : State) (ps : List (Nat × Nat)), ps.Nodup →
    (∀ p : Nat × Nat, p ∈ ps ↔ p.1 < s.width.toNat ∧ p.2 < s.height.toNat) →
    ∀ a, (ps.foldl (fun t p => grayPixel p.1 p.2 t) s).byteAt a = (grayPass s).byteAt a

/-! ### The quantizer -/

/-- R80, whole: the formula in the order of evaluation, the ranges of its steps, its corner cases and its worked example. -/
def Obligations.QlevelFormula : Prop :=
  (∀ (v : Byte) (f : Factor),
    qlevel v f = ((f.val * v.toNat / 255 * (255 / f.val) : Nat) : Int) ∧
    f.val * v.toNat ≤ 255 * f.val ∧ f.val * v.toNat / 255 ≤ f.val ∧ 255 / f.val ≤ 255 ∧
    qlevel v f ≤ f.val * (255 / f.val) ∧ f.val * (255 / f.val) ≤ 255) ∧
  (∀ f : Factor, qlevel 0 f = 0 ∧ qlevel 255 f = f.val * (255 / f.val) ∧ (qlevel 255 f = 255 → f.val ∣ 255)) ∧
  (∀ (v : Byte) (f : Factor), 256 ≤ f.val → qlevel v f = 0) ∧
  (∀ v : Byte, qlevel v ⟨255, by decide⟩ = v.toNat) ∧
  qlevel 150 ⟨4, by decide⟩ = 126

/-- 41_quantizer.md section 2: monotone in the value, never above it and never negative, so that the error is never
negative; the maximum is 255 exactly for the divisors of 255; not idempotent. -/
def Obligations.QlevelProperties : Prop :=
  (∀ (u v : Byte) (f : Factor), u.toNat ≤ v.toNat → qlevel u f ≤ qlevel v f) ∧
  (∀ (v : Byte) (f : Factor), 0 ≤ qlevel v f ∧ qlevel v f ≤ v.toNat) ∧
  (∀ f : Factor, qlevel 255 f = 255 ↔ f.val ∣ 255) ∧
  (∃ (f : Factor) (v : Byte), qlevel (BitVec.ofInt 8 (qlevel v f)) f ≠ qlevel v f)

/-- 41_quantizer.md section 2 (the set of outputs): level `j` is taken exactly by the values from `ceil(255*j / F)` up to,
but not including, `ceil(255*(j+1) / F)`; the outputs are the multiples of the spacing up to `F`, all of them reached when
`F <= 255`, the top one by 255 alone. -/
def Obligations.QlevelLevels : Prop :=
  (∀ (v : Byte) (f : Factor) (j : Nat),
    f.val * v.toNat / 255 = j ↔
      (255 * j + f.val - 1) / f.val ≤ v.toNat ∧ v.toNat < (255 * (j + 1) + f.val - 1) / f.val) ∧
  (∀ (v : Byte) (f : Factor), ∃ k, k ≤ f.val ∧ qlevel v f = k * (255 / f.val)) ∧
  (∀ (f : Factor) (k : Nat), f.val ≤ 255 → k ≤ f.val → ∃ v : Byte, qlevel v f = k * (255 / f.val)) ∧
  (∀ (f : Factor) (v : Byte), f.val ≤ 255 → (qlevel v f = f.val * (255 / f.val) ↔ v = 255))

/-- 41_quantizer.md section 2 (largest error): the table of largest quantization errors, by factor. -/
def Obligations.QlevelLargestErrors : Prop :=
  ∀ p ∈ [(1, 254), (2, 127), (3, 84), (4, 65), (5, 50), (8, 37), (15, 16), (16, 29), (17, 14), (51, 4), (85, 2), (128, 127),
      (254, 1), (255, 0), (256, 255)],
    ∀ f : Factor, f.val = p.1 →
      (∀ v : Byte, (v.toNat : Int) - qlevel v f ≤ p.2) ∧ ∃ v : Byte, (v.toNat : Int) - qlevel v f = p.2

/-! ### DITHER -/

/-- R98, whole: the neighbour update at any target and for any error. Outside the image, nothing; with any channel's exact
sum outside [0,255], nothing; else the three exact sums are stored in the target pixel, and nothing else changes. The
quotient is written out as R7 does, truncating toward zero. -/
def Obligations.NeighbourUpdateResult : Prop :=
  ∀ (s : State) (err : Rgb Int) (p tx ty : Int),
    (¬ (0 ≤ tx ∧ tx ≤ (s.width.toNat : Int) - 1 ∧ 0 ≤ ty ∧ ty ≤ (s.height.toNat : Int) - 1) →
      neighbourUpdate err p tx ty s = s) ∧
    (∀ x y : Nat, tx = x → ty = y → x < s.width.toNat → y < s.height.toNat →
      ∀ S : Rgb Int,
        S.r = (s.readPixel x y).r.toNat + (err.r * p).sign * ((err.r * p).natAbs / 16 : Nat) →
        S.g = (s.readPixel x y).g.toNat + (err.g * p).sign * ((err.g * p).natAbs / 16 : Nat) →
        S.b = (s.readPixel x y).b.toNat + (err.b * p).sign * ((err.b * p).natAbs / 16 : Nat) →
        ((0 ≤ S.r ∧ S.r ≤ 255) ∧ (0 ≤ S.g ∧ S.g ≤ 255) ∧ (0 ≤ S.b ∧ S.b ≤ 255) →
          ∃ t, neighbourUpdate err p tx ty s = t ∧ t = { s with pb := t.pb } ∧
            ((t.readPixel x y).r.toNat : Int) = S.r ∧ ((t.readPixel x y).g.toNat : Int) = S.g ∧
            ((t.readPixel x y).b.toNat : Int) = S.b ∧
            ∀ a, (∀ c, c < 3 → a ≠ pixelAddr s.width.toNat x y c) → t.byteAt a = s.byteAt a) ∧
        (¬ ((0 ≤ S.r ∧ S.r ≤ 255) ∧ (0 ≤ S.g ∧ S.g ≤ 255) ∧ (0 ≤ S.b ∧ S.b ≤ 255)) →
          neighbourUpdate err p tx ty s = s))

/-- R93, whole, with the updates of R98 and the sequencing of R94 in it: the dither visit as a step, byte by byte in natural
arithmetic. The visited pixel becomes its three levels; each of the four neighbours gets the share of the error in all
three channels if all three sums are at most 255, and else stays; every other byte stays; the cursor moves on; nothing else
changes. -/
def Obligations.DitherVisitResult : Prop :=
  ∀ (s : State) (x y : Nat), s.run = .dither → s.cur = .pos x y → s.turns = [] → s.fl ≠ 0 →
    1 ≤ x → x + 2 ≤ s.width.toNat → y + 2 ≤ s.height.toNat → 3 * s.width.toNat * s.height.toNat ≤ s.pbBytes →
    ∀ old new err : Nat → Nat,
      (∀ c, old c = (s.byteAt (pixelAddr s.width.toNat x y c)).toNat) →
      (∀ c, new c = s.fl.toNat * old c / 255 * (255 / s.fl.toNat)) →
      (∀ c, err c = old c - new c) →
      ∃ t, step s = .next t ∧ t = { s with pb := t.pb, cur := t.cur } ∧
        (∀ c, c < 3 → (t.byteAt (pixelAddr s.width.toNat x y c)).toNat = new c ∧ new c ≤ old c) ∧
        (∀ q ∈ [(x + 1, y, 7), (x - 1, y + 1, 3), (x, y + 1, 5), (x + 1, y + 1, 1)], ∀ sum : Nat → Nat,
          (∀ c, sum c = (s.byteAt (pixelAddr s.width.toNat q.1 q.2.1 c)).toNat + err c * q.2.2 / 16) →
          ((∀ c, c < 3 → sum c ≤ 255) →
            ∀ c, c < 3 → (t.byteAt (pixelAddr s.width.toNat q.1 q.2.1 c)).toNat = sum c) ∧
          (¬ (∀ c, c < 3 → sum c ≤ 255) →
            ∀ c, c < 3 → t.byteAt (pixelAddr s.width.toNat q.1 q.2.1 c) = s.byteAt (pixelAddr s.width.toNat q.1 q.2.1 c))) ∧
        (∀ a, (∀ q ∈ [(x, y), (x + 1, y), (x - 1, y + 1), (x, y + 1), (x + 1, y + 1)], ∀ c, c < 3 →
          a ≠ pixelAddr s.width.toNat q.1 q.2 c) → t.byteAt a = s.byteAt a) ∧
        t.cur = (if x + 3 ≤ s.width.toNat then .pos (x + 1) y
          else if y + 3 ≤ s.height.toNat then .pos 1 (y + 1) else .ended)

/-- 42_diffusion.md section 3 (order inside step 5): applying the four updates of a visit in any order leaves the same bytes. -/
def Obligations.KernelOrderIsUnobservable : Prop :=
  ∀ (s : State) (f : Factor) (x y : Nat) (ks : List KernelEntry), inDomain s.w s.h x y = true → ks.Perm kernel →
    ∀ a, (ditherPixelOver ks f x y s).byteAt a = (ditherPixel f x y s).byteAt a

/-- 42_diffusion.md section 4 (the spatial check never fails) and 10_state.md section 5: the four targets of a visit in the
domain lie inside the image. -/
def Obligations.TargetsLieInsideTheImage : Prop :=
  ∀ w h x y : Nat, 1 ≤ x → (x : Int) ≤ (w : Int) - 2 → (y : Int) ≤ (h : Int) - 2 →
    ∀ k ∈ kernel, inImage w h (x + k.dx) (y + k.dy) = true

/-- 42_diffusion.md sections 4 and 5 (shares and conservation): the four shares of an error are never negative, what they lose
of it is 0, 1, 2 or 3, and 0 exactly for a multiple of 16; of an error of at most 255 each is at most 111. -/
def Obligations.SharesLoseAtMostThree : Prop :=
  ∀ e : Nat,
    (∀ k ∈ kernel, 0 ≤ tdiv (e * k.p) 16 ∧ (e ≤ 255 → tdiv (e * k.p) 16 ≤ 111)) ∧
    ∃ loss : Nat, loss ≤ 3 ∧ (loss = 0 ↔ 16 ∣ e) ∧
      (kernel.map (fun k => tdiv (e * k.p) 16)).sum = (e : Int) - loss

/-- 42_diffusion.md section 2: the cursor of a `DITHER` pass takes the positions of the processing domain in raster order and
is then END for good; a position is among them exactly when `1 <= x <= W-2` and `0 <= y <= H-2`. -/
def Obligations.DitherCursorIsTheDomain : Prop :=
  (∀ w h k : Nat,
    (fun c => match c with | .pos x y => nextDither w h x y | .ended => Cursor.ended)^[k] (firstDither w h) =
      if k < (w - 2) * (h - 1) then .pos (1 + k % (w - 2)) (k / (w - 2)) else .ended) ∧
  (∀ w h x y : Nat,
    (1 ≤ x ∧ (x : Int) ≤ (w : Int) - 2 ∧ (y : Int) ≤ (h : Int) - 2) ↔
      ∃ k, k < (w - 2) * (h - 1) ∧ x = 1 + k % (w - 2) ∧ y = k / (w - 2))

/-- 30_encoding.md section 4 (dispatch, retire, big-step reading) and 42_diffusion.md section 1: an accepted `DITHER F` runs
to completion in `max(W-2,0)*max(H-1,0) + 1` engine steps and leaves the machine as the big-step `dither_pass` says, idle,
with `DONE` set and `F` in the latch. -/
def Obligations.DitherRunsItsBigStep : Prop :=
  ∀ (s : State) (f : Half) (F : Factor), s.run = .idle → s.turns = [] → F.val = f.toNat →
    3 * s.width.toNat * s.height.toNat ≤ s.pbBytes →
    ∃ t, exec (.dither f) s = .next t ∧
      t.runFor ((s.width.toNat - 2) * (s.height.toNat - 1) + 1) = .next
        { ditherPass F s with run := .idle, cur := .ended, fl := f, status := { s.status with done := true } }

/-- R92, whole: the domain has `(W-2)*(H-1)` positions when `W >= 3` and `H >= 2` and none otherwise, and then a pass leaves
the buffer completely unchanged, the machine idle and `DONE` set after one engine step; the smallest non-empty domain is the
position (1, 0) of a 3 x 2 image. -/
def Obligations.EmptyDomainChangesNothing : Prop :=
  (∀ w h : Nat, 3 ≤ w → 2 ≤ h →
    ((Finset.range w ×ˢ Finset.range h).filter (fun p => inDomain w h p.1 p.2 = true)).card = (w - 2) * (h - 1)) ∧
  (∀ w h x y : Nat, w < 3 ∨ h < 2 → inDomain w h x y = false) ∧
  (∀ x y : Nat, inDomain 3 2 x y = true ↔ x = 1 ∧ y = 0) ∧
  (∀ (s : State) (f : Half), s.run = .idle → s.turns = [] → f ≠ 0 → 3 * s.width.toNat * s.height.toNat ≤ s.pbBytes →
    s.width.toNat < 3 ∨ s.height.toNat < 2 →
    ∃ t u, exec (.dither f) s = .next t ∧ step t = .next u ∧ u.pb = s.pb ∧ u.run = .idle ∧ u.status.done = true)

/-- 42_diffusion.md section 5, what a pass may write: a byte of a pixel outside the domain never decreases, pixel (0,0) and
every byte beyond the image are the same as before. -/
def Obligations.BoundaryPixelsNeverDecrease : Prop :=
  ∀ (s : State) (f : Factor),
    (∀ x y c, x < s.width.toNat → y < s.height.toNat → c < 3 →
      ¬ (1 ≤ x ∧ x + 2 ≤ s.width.toNat ∧ y + 2 ≤ s.height.toNat) →
      (s.byteAt (pixelAddr s.width.toNat x y c)).toNat ≤ ((ditherPass f s).byteAt (pixelAddr s.width.toNat x y c)).toNat) ∧
    (∀ c, c < 3 → (ditherPass f s).byteAt c = s.byteAt c) ∧
    (∀ a, 3 * s.width.toNat * s.height.toNat ≤ a → (ditherPass f s).byteAt a = s.byteAt a)

/-- 42_diffusion.md sections 3 and 5: after a pass every pixel of the domain is a triple of palette levels, all 0 when
`F >= 256`. -/
def Obligations.DomainPixelsEndOnLevels : Prop :=
  ∀ (s : State) (f : Factor) (x y c : Nat), 1 ≤ x → x + 2 ≤ s.width.toNat → y + 2 ≤ s.height.toNat → c < 3 →
    (∃ k, k ≤ f.val ∧ ((ditherPass f s).byteAt (pixelAddr s.width.toNat x y c)).toNat = k * (255 / f.val)) ∧
    (256 ≤ f.val → (ditherPass f s).byteAt (pixelAddr s.width.toNat x y c) = 0)

/-- 41_quantizer.md section 2 (degenerate factors): a `DITHER 255` pass changes no byte. -/
def Obligations.Factor255ChangesNothing : Prop :=
  ∀ (s : State) (f : Factor) (a : Nat), f.val = 255 → (ditherPass f s).byteAt a = s.byteAt a

/-- 42_diffusion.md section 6 (a): on a gray image every visit, and the whole pass, leaves a gray image. -/
def Obligations.GrayImageStaysGray : Prop :=
  ∀ (s : State) (f : Factor), s.grayImage →
    (∀ x y, inDomain s.w s.h x y = true → (ditherPixel f x y s).grayImage) ∧ (ditherPass f s).grayImage

/-- 20_memory.md section 4 and 42_diffusion.md section 5 (determinism): what either pass leaves in the image depends on the
dimensions, the image bytes and the factor alone. -/
def Obligations.PassDependsOnTheImageAlone : Prop :=
  ∀ (s t : State) (f : Factor), s.width = t.width → s.height = t.height →
    (∀ a, a < 3 * s.width.toNat * s.height.toNat → s.byteAt a = t.byteAt a) →
    ∀ a, a < 3 * s.width.toNat * s.height.toNat →
      (ditherPass f s).byteAt a = (ditherPass f t).byteAt a ∧ (grayPass s).byteAt a = (grayPass t).byteAt a

/-! ### Reset and scripts -/

/-- 10_state.md section 9: the registers after power-up, at every capacity, and of `State.reset`, with the values that the spec
states after reset (R24); `STATUS` reads 0; no byte of `PB` has been written; the engine has no step. (That the registers
hold these values already at power-up is the model's choice: log 23. That the turn of an idle engine leaves the state as it
is is the model's choice: log 3. That an unwritten byte reads as a free value is log 5.) -/
def Obligations.PowerUpState : Prop :=
  ∀ s : State, (∃ capacity, s = .powerUp capacity) ∨ s = .reset →
    s.run = .idle ∧ s.cur = .ended ∧ s.fl = 0 ∧ s.width = 0 ∧ s.height = 0 ∧
    s.status.done = false ∧ s.status.errOp = false ∧ s.status.errFactor = false ∧ s.status.errDim = false ∧
    s.status.errBusy = false ∧ regRead 0x04 s = 0 ∧ (∀ a, Memory.get? s.pb a = none) ∧ engineStep s = .next s

/-- 70_reset_and_hazards.md section 1: a reset in either mode puts every register in its reset value (R150, R24), after which
the engine has no step until a command is accepted. (That `turns`, `pbBytes`, `hostData` and `draws` are kept is DEDUCED, not
the spec's words: log 20. That the turn of an idle engine leaves the state as it is is the model's choice: log 3.) -/
def Obligations.ResetEventResult : Prop :=
  ∀ (s : State) (rest : List Turn), s.turns = .reset :: rest →
    ∃ t, step s = .next t ∧ t.turns = rest ∧ t.pbBytes = s.pbBytes ∧ t.hostData = s.hostData ∧ t.draws = s.draws ∧
      t.run = .idle ∧ t.cur = .ended ∧ t.fl = 0 ∧ t.width = 0 ∧ t.height = 0 ∧ regRead 0x04 t = 0 ∧
      engineStep t = .next t

/-- 70_reset_and_hazards.md section 1: a reset of the idle machine leaves every byte of the buffer as it was; one that cuts a
pass leaves the bytes at `3*W*H` and above as they were, and the image bytes are unwritten again. (That an unwritten byte
reads as a free value is the model's choice: log 5, log 6.) -/
def Obligations.ResetAndTheBuffer : Prop :=
  ∀ (s : State) (rest : List Turn), s.turns = .reset :: rest →
    ∃ t, step s = .next t ∧
      (s.run = .idle → ∀ a, t.byteAt a = s.byteAt a) ∧
      (s.run ≠ .idle → (∀ a, 3 * s.width.toNat * s.height.toNat ≤ a → t.byteAt a = s.byteAt a) ∧
        ∀ a, a < 3 * s.width.toNat * s.height.toNat → Memory.get? t.pb a = none)

/-- 30_encoding.md section 5: the pseudo-instructions and their expansions (R60), and `DITHER` with an operand, which is an
assembler error outside 1 to 65535 (R59). (That an `FSDITHER` with its operand out of that range assembles to nothing at
all, its `GRAY` included, is the model's choice: log 17.) -/
def Obligations.PseudoInstructionsExpand : Prop :=
  assemble .ditherDefault = assemble (.dither 4) ∧
  assemble .ditherDefault = some [.host (.wr 0x00 0x02000004)] ∧
  (∀ f : Int, assemble (.fsdither f) =
    if 1 ≤ f ∧ f ≤ 65535 then
      some [.host (.wr 0x00 0x01000000), .wait, .host (.wr 0x00 (BitVec.ofInt 32 (0x02000000 + f))), .wait]
    else none) ∧
  assemble .fsditherDefault = assemble (.fsdither 4) ∧
  assemble .clrStatus = some [.host (.wr 0x04 0x3E)] ∧
  (∀ f : Int, assemble (.dither f) =
    if 1 ≤ f ∧ f ≤ 65535 then some [.host (.wr 0x00 (BitVec.ofInt 32 (0x02000000 + f)))] else none)

/-- 30_encoding.md section 5 (`LOAD`) and 70_reset_and_hazards.md section 2: run from an idle machine, the turns of a `LOAD`
set the dimensions and leave the listed bytes at the addresses from 0 on, and every other byte as it was. (That a `LOAD` of
another number of bytes than `3*W*H`, or with a `W` or `H` above 16 bits, is no assembler error is the model's choice:
log 22.) -/
def Obligations.LoadPlacesTheImage : Prop :=
  ∀ (s : State) (w h : Word) (bytes : List Byte) (ts : List Turn), s.run = .idle → bytes.length ≤ s.pbBytes →
    assemble (.load w h bytes) = some ts →
    ∃ t, (s.withScript ts).runFor ts.length = .next t ∧ t = { s with width := w.setWidth 16, height := h.setWidth 16, pb := t.pb } ∧
      (∀ a (ha : a < bytes.length), t.byteAt a = bytes[a]) ∧ (∀ a, bytes.length ≤ a → t.byteAt a = s.byteAt a)
end

