-- ==== Sys2Proof/Laws/State.lean ====
section
/-!
SUPPORT. One lemma per field for each update of State, true by definition, so that no later proof unfolds one.
-/

namespace Sys2Proof.Machine

section WithTurns
variable (s : State) (ts : List Turn)
@[simp] theorem withTurns_pbBytes : (s.withTurns ts).pbBytes = s.pbBytes := rfl
@[simp] theorem withTurns_pb : (s.withTurns ts).pb = s.pb := rfl
@[simp] theorem withTurns_lost : (s.withTurns ts).lost = s.lost := rfl
@[simp] theorem withTurns_width : (s.withTurns ts).width = s.width := rfl
@[simp] theorem withTurns_height : (s.withTurns ts).height = s.height := rfl
@[simp] theorem withTurns_status : (s.withTurns ts).status = s.status := rfl
@[simp] theorem withTurns_run : (s.withTurns ts).run = s.run := rfl
@[simp] theorem withTurns_cur : (s.withTurns ts).cur = s.cur := rfl
@[simp] theorem withTurns_fl : (s.withTurns ts).fl = s.fl := rfl
@[simp] theorem withTurns_hostData : (s.withTurns ts).hostData = s.hostData := rfl
@[simp] theorem withTurns_draws : (s.withTurns ts).draws = s.draws := rfl
@[simp] theorem withTurns_turns : (s.withTurns ts).turns = ts := rfl
@[simp] theorem withTurns_w : (s.withTurns ts).w = s.w := rfl
@[simp] theorem withTurns_h : (s.withTurns ts).h = s.h := rfl
@[simp] theorem withTurns_imageBytes : (s.withTurns ts).imageBytes = s.imageBytes := rfl
@[simp] theorem withTurns_withTurns (us : List Turn) : (s.withTurns ts).withTurns us = s.withTurns us := rfl
@[simp] theorem withTurns_byteAt (a : Nat) : (s.withTurns ts).byteAt a = s.byteAt a := rfl
end WithTurns

section SetByte
variable (s : State) (a : Nat) (v : Byte)
@[simp] theorem setByte_pb : (s.setByte a v).pb = Memory.set s.pb a v := rfl
@[simp] theorem setByte_pbBytes : (s.setByte a v).pbBytes = s.pbBytes := rfl
@[simp] theorem setByte_lost : (s.setByte a v).lost = s.lost := rfl
@[simp] theorem setByte_width : (s.setByte a v).width = s.width := rfl
@[simp] theorem setByte_height : (s.setByte a v).height = s.height := rfl
@[simp] theorem setByte_status : (s.setByte a v).status = s.status := rfl
@[simp] theorem setByte_run : (s.setByte a v).run = s.run := rfl
@[simp] theorem setByte_cur : (s.setByte a v).cur = s.cur := rfl
@[simp] theorem setByte_fl : (s.setByte a v).fl = s.fl := rfl
@[simp] theorem setByte_turns : (s.setByte a v).turns = s.turns := rfl
@[simp] theorem setByte_hostData : (s.setByte a v).hostData = s.hostData := rfl
@[simp] theorem setByte_draws : (s.setByte a v).draws = s.draws := rfl
@[simp] theorem setByte_w : (s.setByte a v).w = s.w := rfl
@[simp] theorem setByte_h : (s.setByte a v).h = s.h := rfl
@[simp] theorem setByte_imageBytes : (s.setByte a v).imageBytes = s.imageBytes := rfl
end SetByte

section WritePixel
variable (s : State) (x y : Nat) (p : Pixel)
@[simp] theorem writePixel_pbBytes : (s.writePixel x y p).pbBytes = s.pbBytes := rfl
@[simp] theorem writePixel_lost : (s.writePixel x y p).lost = s.lost := rfl
@[simp] theorem writePixel_width : (s.writePixel x y p).width = s.width := rfl
@[simp] theorem writePixel_height : (s.writePixel x y p).height = s.height := rfl
@[simp] theorem writePixel_status : (s.writePixel x y p).status = s.status := rfl
@[simp] theorem writePixel_run : (s.writePixel x y p).run = s.run := rfl
@[simp] theorem writePixel_cur : (s.writePixel x y p).cur = s.cur := rfl
@[simp] theorem writePixel_fl : (s.writePixel x y p).fl = s.fl := rfl
@[simp] theorem writePixel_turns : (s.writePixel x y p).turns = s.turns := rfl
@[simp] theorem writePixel_hostData : (s.writePixel x y p).hostData = s.hostData := rfl
@[simp] theorem writePixel_draws : (s.writePixel x y p).draws = s.draws := rfl
@[simp] theorem writePixel_w : (s.writePixel x y p).w = s.w := rfl
@[simp] theorem writePixel_h : (s.writePixel x y p).h = s.h := rfl
@[simp] theorem writePixel_imageBytes : (s.writePixel x y p).imageBytes = s.imageBytes := rfl

/-- A pixel write changes the buffer and nothing else. -/
theorem writePixel_eq : s.writePixel x y p = { s with pb := (s.writePixel x y p).pb } := rfl
end WritePixel

section Refuse
variable (f : ErrFlag) (s : State)
@[simp] theorem refuse_pb : (refuse f s).pb = s.pb := rfl
@[simp] theorem refuse_pbBytes : (refuse f s).pbBytes = s.pbBytes := rfl
@[simp] theorem refuse_lost : (refuse f s).lost = s.lost := rfl
@[simp] theorem refuse_width : (refuse f s).width = s.width := rfl
@[simp] theorem refuse_height : (refuse f s).height = s.height := rfl
@[simp] theorem refuse_status : (refuse f s).status = s.status.raise f := rfl
@[simp] theorem refuse_run : (refuse f s).run = s.run := rfl
@[simp] theorem refuse_cur : (refuse f s).cur = s.cur := rfl
@[simp] theorem refuse_fl : (refuse f s).fl = s.fl := rfl
@[simp] theorem refuse_turns : (refuse f s).turns = s.turns := rfl
@[simp] theorem refuse_hostData : (refuse f s).hostData = s.hostData := rfl
@[simp] theorem refuse_draws : (refuse f s).draws = s.draws := rfl
end Refuse

section Raise
variable (st : Status)
@[simp] theorem raise_done (f : ErrFlag) : (st.raise f).done = st.done := by cases f <;> rfl
@[simp] theorem raise_errOp_self : (st.raise .errOp) = { st with errOp := true } := rfl
@[simp] theorem raise_errFactor_self : (st.raise .errFactor) = { st with errFactor := true } := rfl
@[simp] theorem raise_errDim_self : (st.raise .errDim) = { st with errDim := true } := rfl
@[simp] theorem raise_errBusy_self : (st.raise .errBusy) = { st with errBusy := true } := rfl
end Raise

section Answer
variable (v : Word) (s : State)
@[simp] theorem answer_pb : (answer v s).pb = s.pb := rfl
@[simp] theorem answer_pbBytes : (answer v s).pbBytes = s.pbBytes := rfl
@[simp] theorem answer_lost : (answer v s).lost = s.lost := rfl
@[simp] theorem answer_width : (answer v s).width = s.width := rfl
@[simp] theorem answer_height : (answer v s).height = s.height := rfl
@[simp] theorem answer_status : (answer v s).status = s.status := rfl
@[simp] theorem answer_run : (answer v s).run = s.run := rfl
@[simp] theorem answer_cur : (answer v s).cur = s.cur := rfl
@[simp] theorem answer_fl : (answer v s).fl = s.fl := rfl
@[simp] theorem answer_turns : (answer v s).turns = s.turns := rfl
@[simp] theorem answer_hostData : (answer v s).hostData = some v := rfl
@[simp] theorem answer_draws : (answer v s).draws = s.draws := rfl
end Answer

section Accept
variable (r : Run) (c : Cursor) (f : Half) (s : State)
@[simp] theorem accept_pb : (accept r c f s).pb = s.pb := rfl
@[simp] theorem accept_pbBytes : (accept r c f s).pbBytes = s.pbBytes := rfl
@[simp] theorem accept_lost : (accept r c f s).lost = s.lost := rfl
@[simp] theorem accept_width : (accept r c f s).width = s.width := rfl
@[simp] theorem accept_height : (accept r c f s).height = s.height := rfl
@[simp] theorem accept_status : (accept r c f s).status = { s.status with done := false } := rfl
@[simp] theorem accept_run : (accept r c f s).run = r := rfl
@[simp] theorem accept_cur : (accept r c f s).cur = c := rfl
@[simp] theorem accept_fl : (accept r c f s).fl = f := rfl
@[simp] theorem accept_turns : (accept r c f s).turns = s.turns := rfl
@[simp] theorem accept_hostData : (accept r c f s).hostData = s.hostData := rfl
@[simp] theorem accept_draws : (accept r c f s).draws = s.draws := rfl
end Accept

section Retire
variable (s : State)
@[simp] theorem retire_pb : (retire s).pb = s.pb := rfl
@[simp] theorem retire_pbBytes : (retire s).pbBytes = s.pbBytes := rfl
@[simp] theorem retire_lost : (retire s).lost = s.lost := rfl
@[simp] theorem retire_width : (retire s).width = s.width := rfl
@[simp] theorem retire_height : (retire s).height = s.height := rfl
@[simp] theorem retire_status : (retire s).status = { s.status with done := true } := rfl
@[simp] theorem retire_run : (retire s).run = .idle := rfl
@[simp] theorem retire_cur : (retire s).cur = s.cur := rfl
@[simp] theorem retire_fl : (retire s).fl = s.fl := rfl
@[simp] theorem retire_turns : (retire s).turns = s.turns := rfl
@[simp] theorem retire_hostData : (retire s).hostData = s.hostData := rfl
@[simp] theorem retire_draws : (retire s).draws = s.draws := rfl
end Retire

section ClearFlags
variable (v : Word) (s : State)
@[simp] theorem clearFlags_pb : (clearFlags v s).pb = s.pb := rfl
@[simp] theorem clearFlags_pbBytes : (clearFlags v s).pbBytes = s.pbBytes := rfl
@[simp] theorem clearFlags_lost : (clearFlags v s).lost = s.lost := rfl
@[simp] theorem clearFlags_width : (clearFlags v s).width = s.width := rfl
@[simp] theorem clearFlags_height : (clearFlags v s).height = s.height := rfl
@[simp] theorem clearFlags_status : (clearFlags v s).status = s.status.clear v := rfl
@[simp] theorem clearFlags_run : (clearFlags v s).run = s.run := rfl
@[simp] theorem clearFlags_cur : (clearFlags v s).cur = s.cur := rfl
@[simp] theorem clearFlags_fl : (clearFlags v s).fl = s.fl := rfl
@[simp] theorem clearFlags_turns : (clearFlags v s).turns = s.turns := rfl
@[simp] theorem clearFlags_hostData : (clearFlags v s).hostData = s.hostData := rfl
@[simp] theorem clearFlags_draws : (clearFlags v s).draws = s.draws := rfl
end ClearFlags

section ResetEvent
variable (s : State)
@[simp] theorem resetEvent_pbBytes : (resetEvent s).pbBytes = s.pbBytes := rfl
@[simp] theorem resetEvent_width : (resetEvent s).width = 0 := rfl
@[simp] theorem resetEvent_height : (resetEvent s).height = 0 := rfl
@[simp] theorem resetEvent_status : (resetEvent s).status = .reset := rfl
@[simp] theorem resetEvent_run : (resetEvent s).run = .idle := rfl
@[simp] theorem resetEvent_cur : (resetEvent s).cur = .ended := rfl
@[simp] theorem resetEvent_fl : (resetEvent s).fl = 0 := rfl
@[simp] theorem resetEvent_turns : (resetEvent s).turns = s.turns := rfl
@[simp] theorem resetEvent_hostData : (resetEvent s).hostData = s.hostData := rfl
@[simp] theorem resetEvent_draws : (resetEvent s).draws = s.draws := rfl
end ResetEvent

end Sys2Proof.Machine
end

