-- ==== Sys2Proof/Laws/Memory.lean ====
section
/-!
SUPPORT. The laws of the buffer memory: reading after writing, and that every memory operation keeps the canonical form.
-/

namespace Sys2Proof.Machine

@[simp] theorem get?_set_self (m : List Host.Cell) (a : Nat) (v : Byte) : Memory.get? (Memory.set m a v) a = some v := by
  induction m with
  | nil => simp [Memory.set, Memory.get?]
  | cons c rest ih =>
    unfold Memory.set
    split
    · simp [Memory.get?]
    · split
      · simp [Memory.get?]
      · rw [Memory.get?, if_neg (by omega), ih]

theorem get?_set_other (m : List Host.Cell) {a b : Nat} (v : Byte) (h : b ≠ a) :
    Memory.get? (Memory.set m a v) b = Memory.get? m b := by
  induction m with
  | nil => simp [Memory.set, Memory.get?, h.symm]
  | cons c rest ih =>
    unfold Memory.set
    split
    · rw [Memory.get?, if_neg (by simpa using h.symm)]
    · split
      · rename_i _ hac
        rw [Memory.get?, if_neg (by simpa using h.symm), Memory.get?, if_neg (by omega)]
      · simp [Memory.get?, ih]

/-- Every address of the memory after a write is the written one or was there before. -/
theorem mem_set {m : List Host.Cell} {a : Nat} {v : Byte} {c : Host.Cell} (h : c ∈ Memory.set m a v) :
    c = (a, v) ∨ c ∈ m := by
  induction m with
  | nil => simpa [Memory.set] using h
  | cons d rest ih =>
    unfold Memory.set at h
    split at h
    · simpa using h
    · split at h
      · rcases List.mem_cons.mp h with h | h
        · exact .inl h
        · exact .inr (List.mem_cons_of_mem _ h)
      · rcases List.mem_cons.mp h with h | h
        · exact .inr (h ▸ List.mem_cons_self)
        · exact (ih h).imp id (List.mem_cons_of_mem _)

theorem wf_set {m : List Host.Cell} (h : Memory.wf m) (a : Nat) (v : Byte) : Memory.wf (Memory.set m a v) := by
  induction m with
  | nil => simp [Memory.set]
  | cons c rest ih =>
    obtain ⟨hc, hrest⟩ := List.pairwise_cons.mp h
    unfold Memory.set
    split
    · rename_i hlt
      refine List.pairwise_cons.mpr ⟨?_, h⟩
      intro d hd
      rcases List.mem_cons.mp hd with rfl | hd
      · exact hlt
      · exact Nat.lt_trans hlt (hc d hd)
    · split
      · rename_i _ heq
        exact List.pairwise_cons.mpr ⟨fun d hd => by simpa [heq] using hc d hd, hrest⟩
      · refine List.pairwise_cons.mpr ⟨?_, ih hrest⟩
        intro d hd
        rcases mem_set hd with rfl | hd
        · simp only; omega
        · exact hc d hd

theorem wf_dropBelow {m : List Host.Cell} (h : Memory.wf m) (n : Nat) : Memory.wf (Memory.dropBelow m n) :=
  h.filter _

theorem get?_dropBelow (m : List Host.Cell) (n a : Nat) :
    Memory.get? (Memory.dropBelow m n) a = if n ≤ a then Memory.get? m a else none := by
  induction m with
  | nil => simp [Memory.dropBelow, Memory.get?]
  | cons c rest ih =>
    unfold Memory.dropBelow at ih ⊢
    by_cases hc : n ≤ c.1
    · rw [List.filter_cons_of_pos (by simpa using hc)]
      simp only [Memory.get?, ih]
      split
      · subst_vars; simp [hc]
      · rfl
    · rw [List.filter_cons_of_neg (by simpa using hc), ih]
      split
      · rw [Memory.get?, if_neg (by omega)]
      · rfl

/-- A listed address is read from the list. -/
theorem get?_isSome_iff (m : List Host.Cell) (a : Nat) : (Memory.get? m a).isSome ↔ ∃ c ∈ m, c.1 = a := by
  induction m with
  | nil => simp [Memory.get?]
  | cons c rest ih =>
    unfold Memory.get?
    split <;> simp_all

/-- Writes to two different addresses of a memory in canonical form commute. -/
theorem set_comm {m : List Host.Cell} (h : Memory.wf m) {a b : Nat} (hab : a ≠ b) (v w : Byte) :
    Memory.set (Memory.set m a v) b w = Memory.set (Memory.set m b w) a v := by
  induction m with
  | nil =>
    rcases Nat.lt_or_gt_of_ne hab with hlt | hgt
    · simp [Memory.set, hlt, Nat.not_lt.mpr hlt.le, hab.symm]
    · simp [Memory.set, hgt, Nat.not_lt.mpr hgt.le, hab]
  | cons c rest ih =>
    obtain ⟨-, hrest⟩ := List.pairwise_cons.mp h
    have ih := ih hrest
    rcases Nat.lt_trichotomy a c.1 with ha | ha | ha <;> rcases Nat.lt_trichotomy b c.1 with hb | hb | hb <;>
      rcases Nat.lt_or_gt_of_ne hab with hlt | hgt <;>
      first
        | omega
        | (have h1 : ¬ c.1 < a ∨ c.1 < a := by omega
           simp_all [Memory.set, Nat.ne_of_gt, Nat.ne_of_lt, Nat.not_lt_of_gt])

/-! ### The byte the buffer holds -/

@[simp] theorem byteAt_setByte_self (s : State) (a : Nat) (v : Byte) : (s.setByte a v).byteAt a = v := by
  simp [State.byteAt]

theorem byteAt_setByte_other (s : State) {a b : Nat} (v : Byte) (h : b ≠ a) : (s.setByte a v).byteAt b = s.byteAt b := by
  simp [State.byteAt, State.unwritten, get?_set_other _ _ h]

theorem byteAt_setByte (s : State) (a b : Nat) (v : Byte) :
    (s.setByte a v).byteAt b = if b = a then v else s.byteAt b := by
  split
  · subst_vars; simp
  · exact byteAt_setByte_other s v ‹_›

/-- The byte at an address depends on the buffer and on the lost passes alone. -/
theorem byteAt_congr {s t : State} (hp : s.pb = t.pb) (hl : s.lost = t.lost) (a : Nat) : s.byteAt a = t.byteAt a := by
  simp [State.byteAt, State.unwritten, hp, hl]

end Sys2Proof.Machine
end

