-- ==== Sys2Proof/Laws/Operands.lean ====
section
/-!
SUPPORT. The laws of pixel addresses, pixel accesses, the domains and the cursor.
-/

namespace Sys2Proof.Machine

/-! ### Addresses -/

/-- The bytes of a pixel are the three from its first one on. -/
theorem pixelAddr_eq (w x y c : Nat) : pixelAddr w x y c = 3 * (y * w + x) + c := rfl

/-- Two positions of one image have the same number only if they are the same. -/
theorem position_inj {w x y x' y' : Nat} (hx : x < w) (hx' : x' < w) (h : y * w + x = y' * w + x') : x = x' ∧ y = y' := by
  have hw : 0 < w := by omega
  have e1 : (y * w + x) / w = y := by rw [Nat.add_comm, Nat.add_mul_div_right _ _ hw, Nat.div_eq_of_lt hx]; simp
  have e2 : (y' * w + x') / w = y' := by rw [Nat.add_comm, Nat.add_mul_div_right _ _ hw, Nat.div_eq_of_lt hx']; simp
  have hy : y = y' := by rw [← e1, h, e2]
  subst hy
  exact ⟨by omega, rfl⟩

/-- Two channels of one image have the same address only if they are the same (R31). -/
theorem pixelAddr_inj {w x y c x' y' c' : Nat} (hx : x < w) (hx' : x' < w) (hc : c < 3) (hc' : c' < 3)
    (h : pixelAddr w x y c = pixelAddr w x' y' c') : x = x' ∧ y = y' ∧ c = c' := by
  simp only [pixelAddr] at h
  obtain ⟨h1, h2⟩ := position_inj hx hx' (show y * w + x = y' * w + x' by omega)
  exact ⟨h1, h2, by subst h1 h2; omega⟩

/-- The number of a position of the image is below `W*H`. -/
theorem position_lt {w h x y : Nat} (hx : x < w) (hy : y < h) : y * w + x < w * h := by
  have : (y + 1) * w ≤ h * w := Nat.mul_le_mul_right _ hy
  rw [Nat.add_mul] at this
  rw [Nat.mul_comm w h]
  omega

/-- Every byte of the image lies below `3*W*H` (R31). -/
theorem pixelAddr_lt {w h x y c : Nat} (hx : x < w) (hy : y < h) (hc : c < 3) : pixelAddr w x y c < 3 * w * h := by
  have := position_lt hx hy
  rw [Nat.mul_assoc]
  simp only [pixelAddr]
  omega

/-- Every address below `3*W*H` is a channel of some pixel (R31). -/
theorem exists_pixelAddr {w h a : Nat} (ha : a < 3 * w * h) :
    ∃ x y c, x < w ∧ y < h ∧ c < 3 ∧ pixelAddr w x y c = a := by
  have hw : 0 < w := by
    rcases Nat.eq_zero_or_pos w with rfl | hw
    · simp at ha
    · exact hw
  have hn : a / 3 < w * h := by rw [Nat.mul_assoc] at ha; omega
  refine ⟨a / 3 % w, a / 3 / w, a % 3, Nat.mod_lt _ hw, Nat.div_lt_of_lt_mul hn, Nat.mod_lt _ (by omega), ?_⟩
  have := Nat.div_add_mod (a / 3) w
  simp only [pixelAddr]
  rw [Nat.mul_comm (a / 3 / w) w]
  omega

/-! ### Pixel accesses -/

/-- What a pixel write leaves at any address. -/
theorem byteAt_writePixel (s : State) (x y : Nat) (p : Pixel) (a : Nat) :
    (s.writePixel x y p).byteAt a =
      if a = pixelAddr s.w x y 0 then p.r else if a = pixelAddr s.w x y 1 then p.g
      else if a = pixelAddr s.w x y 2 then p.b else s.byteAt a := by
  have h01 : pixelAddr s.w x y 0 ≠ pixelAddr s.w x y 1 := by simp [pixelAddr]
  have h02 : pixelAddr s.w x y 0 ≠ pixelAddr s.w x y 2 := by simp [pixelAddr]
  have h12 : pixelAddr s.w x y 1 ≠ pixelAddr s.w x y 2 := by simp [pixelAddr]
  simp only [State.writePixel, byteAt_setByte]
  split_ifs <;> simp_all

/-- A pixel write leaves every other byte alone. -/
theorem byteAt_writePixel_other (s : State) (x y : Nat) (p : Pixel) {a : Nat}
    (h : ∀ c, c < 3 → a ≠ pixelAddr s.w x y c) : (s.writePixel x y p).byteAt a = s.byteAt a := by
  rw [byteAt_writePixel, if_neg (h 0 (by omega)), if_neg (h 1 (by omega)), if_neg (h 2 (by omega))]

@[simp] theorem readPixel_writePixel_self (s : State) (x y : Nat) (p : Pixel) :
    (s.writePixel x y p).readPixel x y = p := by
  simp [State.readPixel, byteAt_writePixel, pixelAddr]

/-- A pixel write leaves every other pixel of the image alone. -/
theorem readPixel_writePixel_other (s : State) {x y x' y' : Nat} (p : Pixel) (hx : x < s.w) (hx' : x' < s.w)
    (h : x ≠ x' ∨ y ≠ y') : (s.writePixel x y p).readPixel x' y' = s.readPixel x' y' := by
  have key : ∀ c, c < 3 → ∀ d, d < 3 → pixelAddr s.w x' y' c ≠ pixelAddr s.w x y d := fun c hc d hd e => by
    obtain ⟨h1, h2, -⟩ := pixelAddr_inj hx' hx hc hd e
    omega
  simp only [State.readPixel, writePixel_w]
  rw [byteAt_writePixel_other _ _ _ _ (key 0 (by omega)), byteAt_writePixel_other _ _ _ _ (key 1 (by omega)),
    byteAt_writePixel_other _ _ _ _ (key 2 (by omega))]

/-- A pixel write keeps the canonical form of the memory. -/
theorem wf_writePixel {s : State} (h : Memory.wf s.pb) (x y : Nat) (p : Pixel) : Memory.wf (s.writePixel x y p).pb :=
  wf_set (wf_set (wf_set h _ _) _ _) _ _

/-- A pixel write lists no address but those of the pixel. -/
theorem mem_writePixel {s : State} {x y : Nat} {p : Pixel} {c : Host.Cell} (h : c ∈ (s.writePixel x y p).pb) :
    c ∈ s.pb ∨ ∃ k, k < 3 ∧ c.1 = pixelAddr s.w x y k := by
  rcases mem_set h with rfl | h
  · exact .inr ⟨2, by omega, rfl⟩
  rcases mem_set h with rfl | h
  · exact .inr ⟨1, by omega, rfl⟩
  rcases mem_set h with rfl | h
  · exact .inr ⟨0, by omega, rfl⟩
  exact .inl h

/-- A pixel read is of the three bytes alone. -/
theorem readPixel_congr {s t : State} {x y : Nat} (hw : s.w = t.w)
    (h : ∀ c, c < 3 → s.byteAt (pixelAddr t.w x y c) = t.byteAt (pixelAddr t.w x y c)) :
    s.readPixel x y = t.readPixel x y := by
  simp [State.readPixel, hw, h]

/-! ### Domains and cursor -/

theorem inImage_iff {w h : Nat} {tx ty : Int} :
    inImage w h tx ty = true ↔ 0 ≤ tx ∧ tx ≤ (w : Int) - 1 ∧ 0 ≤ ty ∧ ty ≤ (h : Int) - 1 := by
  simp [inImage, and_assoc]

theorem inImage_nat {w h x y : Nat} : inImage w h (x : Int) (y : Int) = true ↔ x < w ∧ y < h := by
  rw [inImage_iff]; omega

theorem inDomain_iff {w h x y : Nat} : inDomain w h x y = true ↔ 1 ≤ x ∧ x + 2 ≤ w ∧ y + 2 ≤ h := by
  simp [inDomain]; omega

/-- A position of the domain is a position of the image. -/
theorem inDomain_lt {w h x y : Nat} (hd : inDomain w h x y = true) : x < w ∧ y < h := by
  rw [inDomain_iff] at hd; omega

theorem firstGray_inImage {w h x y : Nat} (hc : firstGray w h = .pos x y) : x < w ∧ y < h := by
  unfold firstGray at hc
  split at hc
  · cases hc; omega
  · cases hc

theorem nextGray_inImage {w h x y x' y' : Nat} (hy : y < h) (hc : nextGray w h x y = .pos x' y') (hx : x < w) :
    x' < w ∧ y' < h := by
  unfold nextGray at hc
  split at hc
  · cases hc; omega
  · split at hc
    · cases hc; omega
    · cases hc

theorem firstDither_inDomain {w h x y : Nat} (hc : firstDither w h = .pos x y) : inDomain w h x y = true := by
  unfold firstDither at hc
  split at hc
  · cases hc; rw [inDomain_iff]; omega
  · cases hc

theorem nextDither_inDomain {w h x y x' y' : Nat} (hd : inDomain w h x y = true) (hc : nextDither w h x y = .pos x' y') :
    inDomain w h x' y' = true := by
  rw [inDomain_iff] at hd ⊢
  unfold nextDither at hc
  split at hc
  · cases hc; omega
  · split at hc
    · cases hc; omega
    · cases hc

end Sys2Proof.Machine
end

