-- ==== Sys2Proof/Laws/Quantizer.lean ====
section
/-!
SUPPORT. The division and the quantizer over natural numbers, and the quantizer's bounds (R7, R80, R84).
-/

namespace Sys2Proof.Machine

/-- Of two natural numbers the truncating quotient is the natural one (R7). -/
theorem tdiv_nat (a b : Nat) : tdiv (a : Int) (b : Int) = ((a / b : Nat) : Int) := by
  simp [tdiv]

/-- QLEVEL as natural arithmetic (R80). -/
theorem qlevel_nat (v : Byte) (f : Factor) :
    qlevel v f = ((f.val * v.toNat / 255 * (255 / f.val) : Nat) : Int) := by
  have h1 : tdiv ((f.val : Int) * (v.toNat : Int)) 255 = ((f.val * v.toNat / 255 : Nat) : Int) := by
    exact_mod_cast tdiv_nat (f.val * v.toNat) 255
  have h2 : tdiv 255 (f.val : Int) = ((255 / f.val : Nat) : Int) := by exact_mod_cast tdiv_nat 255 f.val
  simp only [qlevel, h1, h2]
  push_cast
  rfl

/-- `QLEVEL(v, F) <= v` (R84 item 4). -/
theorem qlevel_nat_le (v f : Nat) : f * v / 255 * (255 / f) ≤ v := by
  rcases Nat.eq_zero_or_pos f with rfl | hf
  · simp
  · have h1 : f * v / 255 * 255 ≤ f * v := Nat.div_mul_le_self _ _
    have h2 : f * (255 / f) ≤ 255 := Nat.mul_div_le _ _
    have h3 : f * (f * v / 255 * (255 / f)) ≤ f * v := by
      calc f * (f * v / 255 * (255 / f)) = f * v / 255 * (f * (255 / f)) := by ring
        _ ≤ f * v / 255 * 255 := Nat.mul_le_mul_left _ h2
        _ ≤ f * v := h1
    exact Nat.le_of_mul_le_mul_left h3 hf

theorem qlevel_nonneg (v : Byte) (f : Factor) : 0 ≤ qlevel v f := by rw [qlevel_nat]; exact Int.natCast_nonneg _

theorem qlevel_le (v : Byte) (f : Factor) : qlevel v f ≤ v.toNat := by
  rw [qlevel_nat]; exact_mod_cast qlevel_nat_le _ _

theorem qlevel_le_255 (v : Byte) (f : Factor) : qlevel v f ≤ 255 := by
  have := qlevel_le v f
  have := v.isLt
  omega

/-- A number in [0,255] survives being stored in a byte. -/
theorem toNat_ofInt_byte {z : Int} (h0 : 0 ≤ z) (h1 : z ≤ 255) : ((BitVec.ofInt 8 z).toNat : Int) = z := by
  rw [BitVec.toNat_ofInt]
  omega

/-- The latch holds a factor exactly when it is not 0. -/
theorem factorOf_some {fl : Half} (h : fl ≠ 0) : ∃ f, factorOf fl = some f ∧ f.val = fl.toNat := by
  have : 0 < fl.toNat := by
    rcases Nat.eq_zero_or_pos fl.toNat with h0 | h0
    · exact absurd (BitVec.eq_of_toNat_eq (by simpa using h0)) h
    · exact h0
  exact ⟨⟨fl.toNat, this⟩, by simp [factorOf, this], rfl⟩

theorem factorOf_val {fl : Half} {f : Factor} (h : factorOf fl = some f) : f.val = fl.toNat := by
  unfold factorOf at h
  split at h
  · cases h; rfl
  · cases h

end Sys2Proof.Machine
end

