-- ==== Sys2Proof/Laws/Visits.lean ====
section
/-!
SUPPORT. The laws of the two pixel visits: what each writes, and that each is a sequence of pixel writes inside the image.
-/

namespace Sys2Proof.Machine

/-! ### Sequences of pixel writes inside the image -/

/-- `t` comes from `s` by pixel writes inside the image of `s`. -/
inductive ImageWrites (s : State) : State → Prop where
  | refl : ImageWrites s s
  | write {t : State} (h : ImageWrites s t) {x y : Nat} (hx : x < s.w) (hy : y < s.h) (q : Pixel) :
      ImageWrites s (t.writePixel x y q)

/-- They change the buffer and nothing else. -/
theorem ImageWrites.frame {s t : State} (h : ImageWrites s t) : t = { s with pb := t.pb } := by
  induction h with
  | refl => rfl
  | write _ _ _ q ih => rw [writePixel_eq, ih]

theorem ImageWrites.width {s t : State} (h : ImageWrites s t) : t.width = s.width := by rw [h.frame]
theorem ImageWrites.height {s t : State} (h : ImageWrites s t) : t.height = s.height := by rw [h.frame]
theorem ImageWrites.lost {s t : State} (h : ImageWrites s t) : t.lost = s.lost := by rw [h.frame]
theorem ImageWrites.w {s t : State} (h : ImageWrites s t) : t.w = s.w := by rw [State.w, h.width]; rfl
theorem ImageWrites.h {s t : State} (h : ImageWrites s t) : t.h = s.h := by rw [State.h, h.height]; rfl

theorem ImageWrites.trans {s t u : State} (h : ImageWrites s t) (h' : ImageWrites t u) : ImageWrites s u := by
  induction h' with
  | refl => exact h
  | write _ hx hy q ih => exact ih.write (h.w ▸ hx) (h.h ▸ hy) q

/-- They keep the canonical form of the memory. -/
theorem ImageWrites.wf {s t : State} (h : ImageWrites s t) (hs : Memory.wf s.pb) : Memory.wf t.pb := by
  induction h with
  | refl => exact hs
  | write _ _ _ q ih => exact wf_writePixel ih _ _ _

/-- They list no address outside the image. -/
theorem ImageWrites.mem {s t : State} (h : ImageWrites s t) {c : Host.Cell} (hc : c ∈ t.pb) :
    c ∈ s.pb ∨ c.1 < s.imageBytes := by
  induction h with
  | refl => exact .inl hc
  | @write t ht x y hx hy q ih =>
    rcases mem_writePixel hc with hc | ⟨k, hk, e⟩
    · exact ih hc
    · exact .inr (by rw [e, ht.w]; exact pixelAddr_lt hx hy hk)

/-- They leave every byte beyond the image alone (R11). -/
theorem ImageWrites.beyond {s t : State} (h : ImageWrites s t) {a : Nat} (ha : s.imageBytes ≤ a) :
    t.byteAt a = s.byteAt a := by
  induction h with
  | refl => rfl
  | @write t ht x y hx hy q ih =>
    rw [byteAt_writePixel_other, ih]
    intro c hc e
    have := pixelAddr_lt hx hy hc
    rw [ht.w] at e
    rw [State.imageBytes] at ha
    omega

/-- A byte not listed after them was not listed before. -/
theorem ImageWrites.listed {s t : State} (h : ImageWrites s t) {a : Nat} (ha : (Memory.get? s.pb a).isSome) :
    (Memory.get? t.pb a).isSome := by
  induction h with
  | refl => exact ha
  | @write t ht x y hx hy q ih =>
    have set_keeps : ∀ (m : List Host.Cell) b v, (Memory.get? m a).isSome → (Memory.get? (Memory.set m b v) a).isSome := by
      intro m b v hm
      by_cases hb : a = b
      · subst hb; simp
      · rw [get?_set_other _ _ hb]; exact hm
    exact set_keeps _ _ _ (set_keeps _ _ _ (set_keeps _ _ _ ih))

/-- A fold whose every step is such a sequence is one. -/
theorem ImageWrites.foldl {ι : Type} {g : State → ι → State} (l : List ι) {s : State}
    (hg : ∀ t i, i ∈ l → ImageWrites s t → ImageWrites t (g t i)) : ∀ t, ImageWrites s t → ImageWrites s (l.foldl g t) := by
  induction l with
  | nil => intro t ht; exact ht
  | cons i l ih =>
    intro t ht
    exact ih (fun u j hj hu => hg u j (List.mem_cons_of_mem _ hj) hu) _ (ht.trans (hg t i List.mem_cons_self ht))

/-! ### The gray visit -/

/-- The average of a pixel, as natural arithmetic (R71). -/
def grayLevel (p : Pixel) : Nat := (p.r.toNat + p.g.toNat + p.b.toNat) / 3

theorem grayLevel_le (p : Pixel) : grayLevel p ≤ 255 := by
  have := p.r.isLt; have := p.g.isLt; have := p.b.isLt
  simp only [grayLevel]
  omega

/-- Every channel of the gray pixel is the truncated average (R71). -/
theorem grayOf_eq (p : Pixel) :
    grayOf p = ⟨BitVec.ofNat 8 (grayLevel p), BitVec.ofNat 8 (grayLevel p), BitVec.ofNat 8 (grayLevel p)⟩ := by
  have h : tdiv ((p.r.toNat : Int) + (p.g.toNat : Int) + (p.b.toNat : Int)) 3 = (grayLevel p : Nat) := by
    exact_mod_cast tdiv_nat (p.r.toNat + p.g.toNat + p.b.toNat) 3
  simp only [grayOf, h, BitVec.ofInt_natCast]

theorem grayOf_toNat (p : Pixel) :
    (grayOf p).r.toNat = grayLevel p ∧ (grayOf p).g.toNat = grayLevel p ∧ (grayOf p).b.toNat = grayLevel p := by
  have := grayLevel_le p
  rw [grayOf_eq]
  simp only [BitVec.toNat_ofNat]
  omega

theorem grayPixel_imageWrites {x y : Nat} {s : State} (hx : x < s.w) (hy : y < s.h) : ImageWrites s (grayPixel x y s) :=
  ImageWrites.refl.write hx hy _

/-- A gray visit changes the buffer and nothing else. -/
theorem grayPixel_frame (x y : Nat) (s : State) : grayPixel x y s = { s with pb := (grayPixel x y s).pb } := rfl

@[simp] theorem grayPixel_w (x y : Nat) (s : State) : (grayPixel x y s).w = s.w := rfl
@[simp] theorem grayPixel_h (x y : Nat) (s : State) : (grayPixel x y s).h = s.h := rfl

@[simp] theorem readPixel_grayPixel_self (x y : Nat) (s : State) :
    (grayPixel x y s).readPixel x y = grayOf (s.readPixel x y) := by simp [grayPixel]

theorem readPixel_grayPixel_other {s : State} {x y x' y' : Nat} (hx : x < s.w) (hx' : x' < s.w) (h : x ≠ x' ∨ y ≠ y') :
    (grayPixel x y s).readPixel x' y' = s.readPixel x' y' :=
  readPixel_writePixel_other _ _ hx hx' h

/-! ### The neighbour update and the dither visit -/

/-- A neighbour update is skipped, or it writes one pixel inside the image (R98). -/
theorem neighbourUpdate_cases (err : Rgb Int) (p tx ty : Int) (s : State) :
    neighbourUpdate err p tx ty s = s ∨
      ∃ x y : Nat, tx = x ∧ ty = y ∧ x < s.w ∧ y < s.h ∧ representable (diffusedSum err p (s.readPixel x y)) = true ∧
        neighbourUpdate err p tx ty s = s.writePixel x y (storedPixel (diffusedSum err p (s.readPixel x y))) := by
  unfold neighbourUpdate
  split
  · rename_i hin
    have hb := inImage_iff.mp hin
    by_cases hr : representable (diffusedSum err p (s.readPixel tx.toNat ty.toNat)) = true
    · exact .inr ⟨tx.toNat, ty.toNat, by omega, by omega, by omega, by omega, hr, by simp [hr]⟩
    · exact .inl (by simp [hr])
  · exact .inl rfl

/-- A target outside the image is skipped (R98, spatial discard). -/
theorem neighbourUpdate_outside {err : Rgb Int} {p tx ty : Int} {s : State} (h : inImage s.w s.h tx ty = false) :
    neighbourUpdate err p tx ty s = s := by simp [neighbourUpdate, h]

/-- A neighbour update whose target lies in the image (R98). -/
theorem neighbourUpdate_inside (err : Rgb Int) (p : Int) {x y : Nat} {s : State} (hx : x < s.w) (hy : y < s.h) :
    neighbourUpdate err p x y s =
      if representable (diffusedSum err p (s.readPixel x y)) then
        s.writePixel x y (storedPixel (diffusedSum err p (s.readPixel x y)))
      else s := by
  simp [neighbourUpdate, inImage_nat.mpr ⟨hx, hy⟩]

theorem neighbourUpdate_imageWrites (err : Rgb Int) (p tx ty : Int) (s : State) :
    ImageWrites s (neighbourUpdate err p tx ty s) := by
  rcases neighbourUpdate_cases err p tx ty s with h | ⟨x, y, -, -, hx, hy, -, h⟩
  · rw [h]; exact .refl
  · rw [h]; exact ImageWrites.refl.write hx hy _

@[simp] theorem neighbourUpdate_w (err : Rgb Int) (p tx ty : Int) (s : State) : (neighbourUpdate err p tx ty s).w = s.w :=
  (neighbourUpdate_imageWrites err p tx ty s).w

@[simp] theorem neighbourUpdate_h (err : Rgb Int) (p tx ty : Int) (s : State) : (neighbourUpdate err p tx ty s).h = s.h :=
  (neighbourUpdate_imageWrites err p tx ty s).h

/-- A neighbour update touches no pixel but its target. -/
theorem readPixel_neighbourUpdate_other {err : Rgb Int} {p tx ty : Int} {s : State} {x y : Nat} (hx : x < s.w)
    (h : tx ≠ x ∨ ty ≠ y) : (neighbourUpdate err p tx ty s).readPixel x y = s.readPixel x y := by
  rcases neighbourUpdate_cases err p tx ty s with e | ⟨x', y', rfl, rfl, hx', hy', -, e⟩
  · rw [e]
  · rw [e]; exact readPixel_writePixel_other _ _ hx' hx (by omega)

/-- A neighbour update touches no byte but its target's. -/
theorem byteAt_neighbourUpdate_other {err : Rgb Int} {p : Int} {s : State} {x y a : Nat}
    (h : ∀ c, c < 3 → a ≠ pixelAddr s.w x y c) : (neighbourUpdate err p x y s).byteAt a = s.byteAt a := by
  rcases neighbourUpdate_cases err p x y s with e | ⟨x', y', hx, hy, -, -, -, e⟩
  · rw [e]
  · obtain rfl : x = x' := by omega
    obtain rfl : y = y' := by omega
    rw [e, byteAt_writePixel_other _ _ _ _ h]

theorem diffuse_imageWrites (ks : List KernelEntry) (err : Rgb Int) (x y : Nat) (s : State) :
    ImageWrites s (diffuse ks err x y s) :=
  ImageWrites.foldl ks (fun t _ _ _ => neighbourUpdate_imageWrites _ _ _ _ t) s .refl

theorem ditherPixelOver_imageWrites (ks : List KernelEntry) (f : Factor) {x y : Nat} {s : State} (hx : x < s.w)
    (hy : y < s.h) : ImageWrites s (ditherPixelOver ks f x y s) :=
  (ImageWrites.refl.write hx hy _).trans (diffuse_imageWrites ks _ x y _)

theorem ditherPixel_imageWrites (f : Factor) {x y : Nat} {s : State} (hx : x < s.w) (hy : y < s.h) :
    ImageWrites s (ditherPixel f x y s) :=
  ditherPixelOver_imageWrites kernel f hx hy

/-- A dither visit is the write of the quantized pixel and then the four updates, in the kernel's order (R93). -/
theorem ditherPixel_eq (f : Factor) (x y : Nat) (s : State) :
    ditherPixel f x y s =
      neighbourUpdate (quantError f (s.readPixel x y)) 1 (x + 1) (y + 1)
        (neighbourUpdate (quantError f (s.readPixel x y)) 5 (x + 0) (y + 1)
          (neighbourUpdate (quantError f (s.readPixel x y)) 3 (x + -1) (y + 1)
            (neighbourUpdate (quantError f (s.readPixel x y)) 7 (x + 1) (y + 0)
              (s.writePixel x y (storedPixel (quantized f (s.readPixel x y))))))) := by
  simp only [ditherPixel, ditherPixelOver, diffuse, kernel, List.foldl_cons, List.foldl_nil]

/-- The quantized pixel and the error of one visit, as natural arithmetic (R80, R93). -/
theorem quantized_nat (f : Factor) (p : Pixel) :
    quantized f p = p.map (fun v => ((f.val * v.toNat / 255 * (255 / f.val) : Nat) : Int)) := by
  simp [quantized, Rgb.map, qlevel_nat]

theorem quantError_nonneg (f : Factor) (p : Pixel) :
    0 ≤ (quantError f p).r ∧ 0 ≤ (quantError f p).g ∧ 0 ≤ (quantError f p).b := by
  have h1 := qlevel_le p.r f
  have h2 := qlevel_le p.g f
  have h3 := qlevel_le p.b f
  simp only [quantError, toInts, quantized, Rgb.map, Rgb.zip]
  omega

/-- The quantized pixel is stored exactly (R95). -/
theorem storedPixel_quantized (f : Factor) (p : Pixel) : toInts (storedPixel (quantized f p)) = quantized f p := by
  simp only [toInts, storedPixel, quantized, Rgb.map, Rgb.mk.injEq]
  exact ⟨toNat_ofInt_byte (qlevel_nonneg _ _) (qlevel_le_255 _ _), toNat_ofInt_byte (qlevel_nonneg _ _) (qlevel_le_255 _ _),
    toNat_ofInt_byte (qlevel_nonneg _ _) (qlevel_le_255 _ _)⟩

theorem representable_iff {t : Rgb Int} :
    representable t = true ↔ (0 ≤ t.r ∧ t.r ≤ 255) ∧ (0 ≤ t.g ∧ t.g ≤ 255) ∧ (0 ≤ t.b ∧ t.b ≤ 255) := by
  simp [representable, and_assoc]

/-- A representable triple is stored exactly (R98, R108). -/
theorem storedPixel_representable {t : Rgb Int} (h : representable t = true) : toInts (storedPixel t) = t := by
  obtain ⟨⟨h1, h2⟩, ⟨h3, h4⟩, h5, h6⟩ := representable_iff.mp h
  obtain ⟨r, g, b⟩ := t
  simp only [toInts, storedPixel, Rgb.map, Rgb.mk.injEq]
  exact ⟨toNat_ofInt_byte h1 h2, toNat_ofInt_byte h3 h4, toNat_ofInt_byte h5 h6⟩

/-! ### The passes -/

theorem grayPass_imageWrites (s : State) : ImageWrites s (grayPass s) := by
  refine ImageWrites.foldl _ (fun t y hy ht => ?_) s .refl
  have hy' : y < t.h := by rw [ht.h]; exact List.mem_range.mp hy
  refine ImageWrites.foldl _ (fun u x hx hu => ?_) t .refl
  exact grayPixel_imageWrites (by rw [hu.w, ht.w]; exact List.mem_range.mp hx) (by rw [hu.h]; exact hy')

theorem ditherPass_imageWrites (f : Factor) (s : State) : ImageWrites s (ditherPass f s) := by
  refine ImageWrites.foldl _ (fun t y hy ht => ?_) s .refl
  have hy' : y < s.h - 1 := List.mem_range.mp hy
  refine ImageWrites.foldl _ (fun u i hi hu => ?_) t .refl
  have hi' : i < s.w - 2 := List.mem_range.mp hi
  exact ditherPixel_imageWrites f (by rw [hu.w, ht.w]; omega) (by rw [hu.h, ht.h]; omega)

end Sys2Proof.Machine
end

