-- ==== Sys2Proof/Laws/Buffer.lean ====
section
/-!
SUPPORT. The visits change the buffer alone, and what they leave in it depends on the buffer, the lost passes and the
dimensions alone.
-/

namespace Sys2Proof.Machine

/-! ### Frames -/

/-- A neighbour update changes the buffer and nothing else. -/
theorem neighbourUpdate_frame (err : Rgb Int) (p tx ty : Int) (s : State) :
    neighbourUpdate err p tx ty s = { s with pb := (neighbourUpdate err p tx ty s).pb } :=
  (neighbourUpdate_imageWrites err p tx ty s).frame

/-- So do the updates of a visit. -/
theorem diffuse_frame (ks : List KernelEntry) (err : Rgb Int) (x y : Nat) (s : State) :
    diffuse ks err x y s = { s with pb := (diffuse ks err x y s).pb } :=
  (diffuse_imageWrites ks err x y s).frame

/-- A dither visit's accesses change the buffer and nothing else, at any position. -/
theorem ditherPixel_frame (f : Factor) (x y : Nat) (s : State) :
    ditherPixel f x y s = { s with pb := (ditherPixel f x y s).pb } := by
  have h := diffuse_frame kernel (quantError f (s.readPixel x y)) x y
    (s.writePixel x y (storedPixel (quantized f (s.readPixel x y))))
  rw [writePixel_eq] at h
  exact h

theorem grayPass_frame (s : State) : grayPass s = { s with pb := (grayPass s).pb } := (grayPass_imageWrites s).frame

theorem ditherPass_frame (f : Factor) (s : State) : ditherPass f s = { s with pb := (ditherPass f s).pb } :=
  (ditherPass_imageWrites f s).frame

section Fields
variable (f : Factor) (x y : Nat) (s : State)
@[simp] theorem grayPixel_pbBytes : (grayPixel x y s).pbBytes = s.pbBytes := rfl
@[simp] theorem grayPixel_lost : (grayPixel x y s).lost = s.lost := rfl
@[simp] theorem grayPixel_width : (grayPixel x y s).width = s.width := rfl
@[simp] theorem grayPixel_height : (grayPixel x y s).height = s.height := rfl
@[simp] theorem grayPixel_status : (grayPixel x y s).status = s.status := rfl
@[simp] theorem grayPixel_run : (grayPixel x y s).run = s.run := rfl
@[simp] theorem grayPixel_cur : (grayPixel x y s).cur = s.cur := rfl
@[simp] theorem grayPixel_fl : (grayPixel x y s).fl = s.fl := rfl
@[simp] theorem grayPixel_turns : (grayPixel x y s).turns = s.turns := rfl
@[simp] theorem grayPixel_hostData : (grayPixel x y s).hostData = s.hostData := rfl
@[simp] theorem grayPixel_draws : (grayPixel x y s).draws = s.draws := rfl
@[simp] theorem ditherPixel_pbBytes : (ditherPixel f x y s).pbBytes = s.pbBytes := by rw [ditherPixel_frame]
@[simp] theorem ditherPixel_lost : (ditherPixel f x y s).lost = s.lost := by rw [ditherPixel_frame]
@[simp] theorem ditherPixel_width : (ditherPixel f x y s).width = s.width := by rw [ditherPixel_frame]
@[simp] theorem ditherPixel_height : (ditherPixel f x y s).height = s.height := by rw [ditherPixel_frame]
@[simp] theorem ditherPixel_status : (ditherPixel f x y s).status = s.status := by rw [ditherPixel_frame]
@[simp] theorem ditherPixel_run : (ditherPixel f x y s).run = s.run := by rw [ditherPixel_frame]
@[simp] theorem ditherPixel_cur : (ditherPixel f x y s).cur = s.cur := by rw [ditherPixel_frame]
@[simp] theorem ditherPixel_fl : (ditherPixel f x y s).fl = s.fl := by rw [ditherPixel_frame]
@[simp] theorem ditherPixel_turns : (ditherPixel f x y s).turns = s.turns := by rw [ditherPixel_frame]
@[simp] theorem ditherPixel_hostData : (ditherPixel f x y s).hostData = s.hostData := by rw [ditherPixel_frame]
@[simp] theorem ditherPixel_draws : (ditherPixel f x y s).draws = s.draws := by rw [ditherPixel_frame]
@[simp] theorem ditherPixel_w : (ditherPixel f x y s).w = s.w := by rw [State.w, ditherPixel_width]; rfl
@[simp] theorem ditherPixel_h : (ditherPixel f x y s).h = s.h := by rw [State.h, ditherPixel_height]; rfl
end Fields

/-! ### Dependence on the buffer alone -/

/-- The two states hold the same buffer, seen with the same dimensions. -/
def SameBuffer (s t : State) : Prop := s.pb = t.pb ∧ s.lost = t.lost ∧ s.width = t.width ∧ s.height = t.height

theorem SameBuffer.w {s t : State} (h : SameBuffer s t) : s.w = t.w := by rw [State.w, h.2.2.1]; rfl
theorem SameBuffer.h {s t : State} (h : SameBuffer s t) : s.h = t.h := by rw [State.h, h.2.2.2]; rfl

theorem SameBuffer.imageBytes {s t : State} (h : SameBuffer s t) : s.imageBytes = t.imageBytes := by
  rw [State.imageBytes, h.w, h.h]; rfl

theorem SameBuffer.byteAt {s t : State} (h : SameBuffer s t) (a : Nat) : s.byteAt a = t.byteAt a :=
  byteAt_congr h.1 h.2.1 a

theorem SameBuffer.readPixel {s t : State} (h : SameBuffer s t) (x y : Nat) : s.readPixel x y = t.readPixel x y :=
  readPixel_congr h.w (fun _ _ => h.byteAt _)

theorem SameBuffer.writePixel {s t : State} (h : SameBuffer s t) (x y : Nat) (q : Pixel) :
    SameBuffer (s.writePixel x y q) (t.writePixel x y q) := by
  refine ⟨?_, h.2.1, h.2.2.1, h.2.2.2⟩
  simp only [State.writePixel, setByte_pb, h.w, h.1]

theorem SameBuffer.grayPixel {s t : State} (h : SameBuffer s t) (x y : Nat) :
    SameBuffer (grayPixel x y s) (grayPixel x y t) := by
  unfold Machine.grayPixel
  rw [h.readPixel]
  exact h.writePixel x y _

theorem SameBuffer.neighbourUpdate {s t : State} (h : SameBuffer s t) (err : Rgb Int) (p tx ty : Int) :
    SameBuffer (neighbourUpdate err p tx ty s) (neighbourUpdate err p tx ty t) := by
  unfold Machine.neighbourUpdate
  simp only [h.w, h.h, h.readPixel]
  split
  · split
    · exact h.writePixel _ _ _
    · exact h
  · exact h

theorem SameBuffer.ditherPixel {s t : State} (h : SameBuffer s t) (f : Factor) (x y : Nat) :
    SameBuffer (ditherPixel f x y s) (ditherPixel f x y t) := by
  rw [ditherPixel_eq, ditherPixel_eq, h.readPixel]
  exact ((((h.writePixel _ _ _).neighbourUpdate _ _ _ _).neighbourUpdate _ _ _ _).neighbourUpdate _ _ _ _).neighbourUpdate
    _ _ _ _

end Sys2Proof.Machine
end

