-- ==== Sys2Proof/Laws/Port.lean ====
section
/-!
SUPPORT. The port operations field by field: each field that an operation never changes, said once.
-/

namespace Sys2Proof.Machine

@[simp] theorem writeWidth_pbBytes (w : Word) (s : State) : (writeWidth w s).pbBytes = s.pbBytes := by unfold writeWidth; split <;> rfl
@[simp] theorem writeWidth_pb (w : Word) (s : State) : (writeWidth w s).pb = s.pb := by unfold writeWidth; split <;> rfl
@[simp] theorem writeWidth_lost (w : Word) (s : State) : (writeWidth w s).lost = s.lost := by unfold writeWidth; split <;> rfl
@[simp] theorem writeWidth_height (w : Word) (s : State) : (writeWidth w s).height = s.height := by unfold writeWidth; split <;> rfl
@[simp] theorem writeWidth_run (w : Word) (s : State) : (writeWidth w s).run = s.run := by unfold writeWidth; split <;> rfl
@[simp] theorem writeWidth_cur (w : Word) (s : State) : (writeWidth w s).cur = s.cur := by unfold writeWidth; split <;> rfl
@[simp] theorem writeWidth_fl (w : Word) (s : State) : (writeWidth w s).fl = s.fl := by unfold writeWidth; split <;> rfl
@[simp] theorem writeWidth_turns (w : Word) (s : State) : (writeWidth w s).turns = s.turns := by unfold writeWidth; split <;> rfl
@[simp] theorem writeWidth_hostData (w : Word) (s : State) : (writeWidth w s).hostData = s.hostData := by unfold writeWidth; split <;> rfl
@[simp] theorem writeWidth_draws (w : Word) (s : State) : (writeWidth w s).draws = s.draws := by unfold writeWidth; split <;> rfl

@[simp] theorem writeHeight_pbBytes (w : Word) (s : State) : (writeHeight w s).pbBytes = s.pbBytes := by unfold writeHeight; split <;> rfl
@[simp] theorem writeHeight_pb (w : Word) (s : State) : (writeHeight w s).pb = s.pb := by unfold writeHeight; split <;> rfl
@[simp] theorem writeHeight_lost (w : Word) (s : State) : (writeHeight w s).lost = s.lost := by unfold writeHeight; split <;> rfl
@[simp] theorem writeHeight_width (w : Word) (s : State) : (writeHeight w s).width = s.width := by unfold writeHeight; split <;> rfl
@[simp] theorem writeHeight_run (w : Word) (s : State) : (writeHeight w s).run = s.run := by unfold writeHeight; split <;> rfl
@[simp] theorem writeHeight_cur (w : Word) (s : State) : (writeHeight w s).cur = s.cur := by unfold writeHeight; split <;> rfl
@[simp] theorem writeHeight_fl (w : Word) (s : State) : (writeHeight w s).fl = s.fl := by unfold writeHeight; split <;> rfl
@[simp] theorem writeHeight_turns (w : Word) (s : State) : (writeHeight w s).turns = s.turns := by unfold writeHeight; split <;> rfl
@[simp] theorem writeHeight_hostData (w : Word) (s : State) : (writeHeight w s).hostData = s.hostData := by unfold writeHeight; split <;> rfl
@[simp] theorem writeHeight_draws (w : Word) (s : State) : (writeHeight w s).draws = s.draws := by unfold writeHeight; split <;> rfl

@[simp] theorem bufWrite_pbBytes (a : Nat) (v : Byte) (s : State) : (bufWrite a v s).pbBytes = s.pbBytes := by unfold bufWrite; split_ifs <;> rfl
@[simp] theorem bufWrite_lost (a : Nat) (v : Byte) (s : State) : (bufWrite a v s).lost = s.lost := by unfold bufWrite; split_ifs <;> rfl
@[simp] theorem bufWrite_width (a : Nat) (v : Byte) (s : State) : (bufWrite a v s).width = s.width := by unfold bufWrite; split_ifs <;> rfl
@[simp] theorem bufWrite_height (a : Nat) (v : Byte) (s : State) : (bufWrite a v s).height = s.height := by unfold bufWrite; split_ifs <;> rfl
@[simp] theorem bufWrite_run (a : Nat) (v : Byte) (s : State) : (bufWrite a v s).run = s.run := by unfold bufWrite; split_ifs <;> rfl
@[simp] theorem bufWrite_cur (a : Nat) (v : Byte) (s : State) : (bufWrite a v s).cur = s.cur := by unfold bufWrite; split_ifs <;> rfl
@[simp] theorem bufWrite_fl (a : Nat) (v : Byte) (s : State) : (bufWrite a v s).fl = s.fl := by unfold bufWrite; split_ifs <;> rfl
@[simp] theorem bufWrite_turns (a : Nat) (v : Byte) (s : State) : (bufWrite a v s).turns = s.turns := by unfold bufWrite; split_ifs <;> rfl
@[simp] theorem bufWrite_hostData (a : Nat) (v : Byte) (s : State) : (bufWrite a v s).hostData = s.hostData := by unfold bufWrite; split_ifs <;> rfl
@[simp] theorem bufWrite_draws (a : Nat) (v : Byte) (s : State) : (bufWrite a v s).draws = s.draws := by unfold bufWrite; split_ifs <;> rfl

@[simp] theorem bufRead_pbBytes (a : Nat) (s : State) : (bufRead a s).pbBytes = s.pbBytes := by unfold bufRead; split_ifs <;> rfl
@[simp] theorem bufRead_pb (a : Nat) (s : State) : (bufRead a s).pb = s.pb := by unfold bufRead; split_ifs <;> rfl
@[simp] theorem bufRead_lost (a : Nat) (s : State) : (bufRead a s).lost = s.lost := by unfold bufRead; split_ifs <;> rfl
@[simp] theorem bufRead_width (a : Nat) (s : State) : (bufRead a s).width = s.width := by unfold bufRead; split_ifs <;> rfl
@[simp] theorem bufRead_height (a : Nat) (s : State) : (bufRead a s).height = s.height := by unfold bufRead; split_ifs <;> rfl
@[simp] theorem bufRead_run (a : Nat) (s : State) : (bufRead a s).run = s.run := by unfold bufRead; split_ifs <;> rfl
@[simp] theorem bufRead_cur (a : Nat) (s : State) : (bufRead a s).cur = s.cur := by unfold bufRead; split_ifs <;> rfl
@[simp] theorem bufRead_fl (a : Nat) (s : State) : (bufRead a s).fl = s.fl := by unfold bufRead; split_ifs <;> rfl
@[simp] theorem bufRead_turns (a : Nat) (s : State) : (bufRead a s).turns = s.turns := by unfold bufRead; split_ifs <;> rfl

@[simp] theorem waitPoll_pbBytes (s : State) : (waitPoll s).pbBytes = s.pbBytes := by unfold waitPoll; split <;> rfl
@[simp] theorem waitPoll_pb (s : State) : (waitPoll s).pb = s.pb := by unfold waitPoll; split <;> rfl
@[simp] theorem waitPoll_lost (s : State) : (waitPoll s).lost = s.lost := by unfold waitPoll; split <;> rfl
@[simp] theorem waitPoll_width (s : State) : (waitPoll s).width = s.width := by unfold waitPoll; split <;> rfl
@[simp] theorem waitPoll_height (s : State) : (waitPoll s).height = s.height := by unfold waitPoll; split <;> rfl
@[simp] theorem waitPoll_status (s : State) : (waitPoll s).status = s.status := by unfold waitPoll; split <;> rfl
@[simp] theorem waitPoll_run (s : State) : (waitPoll s).run = s.run := by unfold waitPoll; split <;> rfl
@[simp] theorem waitPoll_cur (s : State) : (waitPoll s).cur = s.cur := by unfold waitPoll; split <;> rfl
@[simp] theorem waitPoll_fl (s : State) : (waitPoll s).fl = s.fl := by unfold waitPoll; split <;> rfl
@[simp] theorem waitPoll_draws (s : State) : (waitPoll s).draws = s.draws := by unfold waitPoll; split <;> rfl

/-- While busy a buffer write is only refused (R126). -/
theorem bufWrite_busy {a : Nat} {v : Byte} {s : State} (hr : s.run ≠ .idle) : bufWrite a v s = refuse .errBusy s := by
  simp [bufWrite, hr]

/-- While busy a buffer read is refused and answers an unspecified byte (R126). -/
theorem bufRead_busy {a : Nat} {s : State} (hr : s.run ≠ .idle) :
    bufRead a s = answer ((Config.busyByte s.draws).setWidth 32) { refuse .errBusy s with draws := s.draws + 1 } := by
  simp [bufRead, hr]

theorem writeWidth_busy {w : Word} {s : State} (hr : s.run ≠ .idle) : writeWidth w s = refuse .errBusy s := by
  simp [writeWidth, hr]

theorem writeHeight_busy {w : Word} {s : State} (hr : s.run ≠ .idle) : writeHeight w s = refuse .errBusy s := by
  simp [writeHeight, hr]

/-- While idle a buffer write stores one existing byte or does nothing (R34, R35). -/
theorem bufWrite_idle {a : Nat} {v : Byte} {s : State} (hr : s.run = .idle) :
    bufWrite a v s = if a < s.pbBytes then s.setByte a v else s := by
  simp [bufWrite, hr]

/-- While idle a buffer read answers the byte, or 0 outside the memory (R34, R35). -/
theorem bufRead_idle {a : Nat} {s : State} (hr : s.run = .idle) :
    bufRead a s = if a < s.pbBytes then answer ((s.byteAt a).setWidth 32) s else answer 0 s := by
  simp [bufRead, hr]

theorem writeWidth_idle {w : Word} {s : State} (hr : s.run = .idle) :
    writeWidth w s = { s with width := w.setWidth 16 } := by simp [writeWidth, hr]

theorem writeHeight_idle {w : Word} {s : State} (hr : s.run = .idle) :
    writeHeight w s = { s with height := w.setWidth 16 } := by simp [writeHeight, hr]

theorem waitPoll_idle {s : State} (hr : s.run = .idle) : waitPoll s = answer (regRead 0x04 s) s := by
  simp [waitPoll, hr]

theorem waitPoll_busy {s : State} (hr : s.run ≠ .idle) :
    waitPoll s = (answer (regRead 0x04 s) s).withTurns (.engine :: .wait :: s.turns) := by
  simp [waitPoll, hr]

end Sys2Proof.Machine
end

