-- ==== Sys2Proof/Laws/Step.lean ====
section
/-!
SUPPORT. Everything a command, a host transaction, the engine and a step can do, each said once.
-/

namespace Sys2Proof.Machine

/-! ### Commands -/

/-- The three outcomes of issuing a command (R56). -/
theorem issue_cases (r : Run) (c : Cursor) (f : Half) (s : State) :
    (s.run ≠ .idle ∧ issue r c f s = refuse .errBusy s) ∨
      (s.run = .idle ∧ s.pbBytes < s.imageBytes ∧ issue r c f s = refuse .errDim s) ∨
      (s.run = .idle ∧ s.imageBytes ≤ s.pbBytes ∧ issue r c f s = accept r c f s) := by
  unfold issue
  by_cases hr : s.run = .idle
  · by_cases hd : s.imageBytes > s.pbBytes
    · exact .inr (.inl ⟨hr, hd, by simp [hr, hd]⟩)
    · exact .inr (.inr ⟨hr, by omega, by simp [hr, hd]⟩)
  · exact .inl ⟨hr, by simp [hr]⟩

theorem issue_accepts {r : Run} {c : Cursor} {f : Half} {s : State} (hr : s.run = .idle) (hf : s.imageBytes ≤ s.pbBytes) :
    issue r c f s = accept r c f s := by simp [issue, hr, Nat.not_lt.mpr hf]

theorem issue_busy {r : Run} {c : Cursor} {f : Half} {s : State} (hr : s.run ≠ .idle) :
    issue r c f s = refuse .errBusy s := by simp [issue, hr]

/-- What the write of an instruction's word can do: three refusals, or one of the two acceptances (R56). -/
theorem exec_cases {i : Instr} {s t : State} (h : exec i s = .next t) :
    (s.run ≠ .idle ∧ t = refuse .errBusy s) ∨
      (s.run = .idle ∧ i = .dither 0 ∧ t = refuse .errFactor s) ∨
      (s.run = .idle ∧ s.pbBytes < s.imageBytes ∧ t = refuse .errDim s) ∨
      (s.run = .idle ∧ i = .gray ∧ s.imageBytes ≤ s.pbBytes ∧ t = accept .gray (firstGray s.w s.h) s.fl s) ∨
      (∃ f, s.run = .idle ∧ i = .dither f ∧ f ≠ 0 ∧ s.imageBytes ≤ s.pbBytes ∧
        t = accept .dither (firstDither s.w s.h) f s) := by
  cases i with
  | gray =>
    cases h
    rcases issue_cases .gray (firstGray s.w s.h) s.fl s with ⟨hr, e⟩ | ⟨hr, hd, e⟩ | ⟨hr, hf, e⟩
    · exact .inl ⟨hr, e⟩
    · exact .inr (.inr (.inl ⟨hr, hd, e⟩))
    · exact .inr (.inr (.inr (.inl ⟨hr, rfl, hf, e⟩)))
  | dither f =>
    simp only [exec, execDither] at h
    split at h
    · rename_i hz
      cases h
      exact .inr (.inl ⟨hz.1, by rw [hz.2], rfl⟩)
    · rename_i hz
      cases h
      rcases issue_cases .dither (firstDither s.w s.h) f s with ⟨hr, e⟩ | ⟨hr, hd, e⟩ | ⟨hr, hf, e⟩
      · exact .inl ⟨hr, e⟩
      · exact .inr (.inr (.inl ⟨hr, hd, e⟩))
      · exact .inr (.inr (.inr (.inr ⟨f, hr, rfl, fun hf0 => hz ⟨hr, hf0⟩, hf, e⟩)))

theorem exec_next (i : Instr) (s : State) : ∃ t, exec i s = .next t := by
  cases i with
  | gray => exact ⟨_, rfl⟩
  | dither f => simp only [exec, execDither]; split <;> exact ⟨_, rfl⟩

theorem exec_busy {i : Instr} {s : State} (hr : s.run ≠ .idle) : exec i s = .next (refuse .errBusy s) := by
  cases i <;> simp [exec, execGray, execDither, hr, issue_busy hr]

/-- What a write to `CMD` can do (R56). -/
theorem writeCmd_cases {w : Word} {s t : State} (h : writeCmd w s = .next t) :
    (s.run ≠ .idle ∧ t = refuse .errBusy s) ∨
      (s.run = .idle ∧ decode w = .reserved ∧ t = refuse .errOp s) ∨
      (s.run = .idle ∧ decode w = .badFactor ∧ t = refuse .errFactor s) ∨
      (∃ i, s.run = .idle ∧ decode w = .instr i ∧ exec i s = .next t) := by
  unfold writeCmd at h
  by_cases hr : s.run = .idle
  · simp only [hr, ne_eq, not_true, if_false] at h
    split at h
    · cases h; exact .inr (.inl ⟨hr, ‹_›, rfl⟩)
    · cases h; exact .inr (.inr (.inl ⟨hr, ‹_›, rfl⟩))
    · exact .inr (.inr (.inr ⟨_, hr, ‹_›, h⟩))
  · simp only [ne_eq, hr, not_false_iff, if_true] at h
    cases h
    exact .inl ⟨hr, rfl⟩

theorem writeCmd_next (w : Word) (s : State) : ∃ t, writeCmd w s = .next t := by
  unfold writeCmd
  split
  · exact ⟨_, rfl⟩
  · split
    · exact ⟨_, rfl⟩
    · exact ⟨_, rfl⟩
    · exact exec_next _ s

/-- Writing a word that decodes to an instruction is executing it, in either mode. -/
theorem writeCmd_instr {w : Word} {i : Instr} (h : decode w = .instr i) (s : State) : writeCmd w s = exec i s := by
  unfold writeCmd
  split
  · exact (exec_busy ‹_›).symm
  · rw [h]

/-- A decoded factor is not 0 (R55). -/
theorem decode_dither_ne_zero {w : Word} {f : Half} (h : decode w = .instr (.dither f)) : f ≠ 0 := by
  unfold decode at h
  split at h
  · cases h
  · split at h
    · cases h; rename_i _ hc; exact hc.2.2
    · split at h <;> cases h

/-! ### The register map -/

theorem regAt_none_iff {offset : Nat} :
    regAt offset = none ↔ offset ≠ 0x00 ∧ offset ≠ 0x04 ∧ offset ≠ 0x08 ∧ offset ≠ 0x0C := by
  unfold regAt
  split_ifs <;> simp_all

theorem regAt_cases (offset : Nat) :
    (offset = 0x00 ∧ regAt offset = some .cmd) ∨ (offset = 0x04 ∧ regAt offset = some .status) ∨
      (offset = 0x08 ∧ regAt offset = some .width) ∨ (offset = 0x0C ∧ regAt offset = some .height) ∨
      (offset ≠ 0x00 ∧ offset ≠ 0x04 ∧ offset ≠ 0x08 ∧ offset ≠ 0x0C ∧ regAt offset = none) := by
  unfold regAt
  split_ifs <;> simp_all

/-! ### Host transactions -/

/-- Everything a host transaction can do (R61). -/
theorem transact_cases {tr : Transaction} {s t : State} (h : transact tr s = .next t) :
    (∃ w, tr = .wr 0x00 w ∧ writeCmd w s = .next t) ∨
      (∃ w, tr = .wr 0x04 w ∧ t = clearFlags w s) ∨
      (∃ w, tr = .wr 0x08 w ∧ t = writeWidth w s) ∨
      (∃ w, tr = .wr 0x0C w ∧ t = writeHeight w s) ∨
      (∃ o w, tr = .wr o w ∧ regAt o = none ∧ t = s) ∨
      (∃ o, tr = .rd o ∧ t = answer (regRead o s) s) ∨
      (∃ a v, tr = .pbw a v ∧ t = bufWrite a v s) ∨
      (∃ a, tr = .pbr a ∧ t = bufRead a s) := by
  cases tr with
  | wr o w =>
    simp only [transact, regWrite] at h
    rcases regAt_cases o with ⟨rfl, e⟩ | ⟨rfl, e⟩ | ⟨rfl, e⟩ | ⟨rfl, e⟩ | ⟨-, -, -, -, e⟩ <;> rw [e] at h
    · exact .inl ⟨w, rfl, h⟩
    · cases h; exact .inr (.inl ⟨w, rfl, rfl⟩)
    · cases h; exact .inr (.inr (.inl ⟨w, rfl, rfl⟩))
    · cases h; exact .inr (.inr (.inr (.inl ⟨w, rfl, rfl⟩)))
    · cases h; exact .inr (.inr (.inr (.inr (.inl ⟨o, w, rfl, e, rfl⟩))))
  | rd o => cases h; exact .inr (.inr (.inr (.inr (.inr (.inl ⟨o, rfl, rfl⟩)))))
  | pbw a v => cases h; exact .inr (.inr (.inr (.inr (.inr (.inr (.inl ⟨a, v, rfl, rfl⟩))))))
  | pbr a => cases h; exact .inr (.inr (.inr (.inr (.inr (.inr (.inr ⟨a, rfl, rfl⟩))))))

theorem transact_next (tr : Transaction) (s : State) : ∃ t, transact tr s = .next t := by
  cases tr with
  | wr o w =>
    simp only [transact, regWrite]
    rcases regAt_cases o with ⟨-, e⟩ | ⟨-, e⟩ | ⟨-, e⟩ | ⟨-, e⟩ | ⟨-, -, -, -, e⟩ <;> rw [e]
    · exact writeCmd_next w s
    all_goals exact ⟨_, rfl⟩
  | rd o => exact ⟨_, rfl⟩
  | pbw a v => exact ⟨_, rfl⟩
  | pbr a => exact ⟨_, rfl⟩

theorem samePass_refl (s : State) : s.samePass s := ⟨rfl, rfl, rfl, rfl, rfl, rfl, rfl, rfl⟩

theorem samePass_symm {s t : State} (h : s.samePass t) : t.samePass s := by
  obtain ⟨h1, h2, h3, h4, h5, h6, h7, h8⟩ := h
  exact ⟨h1.symm, h2.symm, h3.symm, h4.symm, h5.symm, h6.symm, h7.symm, h8.symm⟩

theorem samePass_trans {s t u : State} (h : s.samePass t) (h' : t.samePass u) : s.samePass u := by
  obtain ⟨h1, h2, h3, h4, h5, h6, h7, h8⟩ := h
  obtain ⟨k1, k2, k3, k4, k5, k6, k7, k8⟩ := h'
  exact ⟨h1.trans k1, h2.trans k2, h3.trans k3, h4.trans k4, h5.trans k5, h6.trans k6, h7.trans k7, h8.trans k8⟩

/-- While busy, a host transaction leaves the pass where it is (R126). -/
theorem transact_busy {tr : Transaction} {s t : State} (hr : s.run ≠ .idle) (h : transact tr s = .next t) :
    s.samePass t ∧ t.turns = s.turns := by
  rcases transact_cases h with ⟨w, -, h⟩ | ⟨w, -, rfl⟩ | ⟨w, -, rfl⟩ | ⟨w, -, rfl⟩ | ⟨o, w, -, -, rfl⟩ | ⟨o, -, rfl⟩ |
      ⟨a, v, -, rfl⟩ | ⟨a, -, rfl⟩
  · rcases writeCmd_cases h with ⟨-, rfl⟩ | ⟨hi, -⟩ | ⟨hi, -⟩ | ⟨i, hi, -⟩
    · exact ⟨samePass_refl _, rfl⟩
    all_goals exact absurd hi hr
  · exact ⟨samePass_refl _, rfl⟩
  · simp only [writeWidth, ne_eq, hr, not_false_iff, if_true]; exact ⟨samePass_refl _, rfl⟩
  · simp only [writeHeight, ne_eq, hr, not_false_iff, if_true]; exact ⟨samePass_refl _, rfl⟩
  · exact ⟨samePass_refl _, rfl⟩
  · exact ⟨samePass_refl _, rfl⟩
  · simp only [bufWrite, ne_eq, hr, not_false_iff, if_true]; exact ⟨samePass_refl _, rfl⟩
  · simp only [bufRead, ne_eq, hr, not_false_iff, if_true]; exact ⟨samePass_refl _, rfl⟩

/-- The turns still to come are changed by no host transaction. -/
theorem transact_turns {tr : Transaction} {s t : State} (h : transact tr s = .next t) : t.turns = s.turns := by
  rcases transact_cases h with ⟨w, -, h⟩ | ⟨w, -, rfl⟩ | ⟨w, -, rfl⟩ | ⟨w, -, rfl⟩ | ⟨o, w, -, -, rfl⟩ | ⟨o, -, rfl⟩ |
      ⟨a, v, -, rfl⟩ | ⟨a, -, rfl⟩
  · rcases writeCmd_cases h with ⟨-, rfl⟩ | ⟨-, -, rfl⟩ | ⟨-, -, rfl⟩ | ⟨i, -, -, h⟩
    · rfl
    · rfl
    · rfl
    · rcases exec_cases h with ⟨-, rfl⟩ | ⟨-, -, rfl⟩ | ⟨-, -, rfl⟩ | ⟨-, -, -, rfl⟩ | ⟨f, -, -, -, -, rfl⟩ <;> rfl
  · rfl
  · unfold writeWidth; split <;> rfl
  · unfold writeHeight; split <;> rfl
  · rfl
  · rfl
  · unfold bufWrite; split
    · rfl
    · split <;> rfl
  · unfold bufRead; split
    · rfl
    · split <;> rfl

/-- A host transaction starts a pass only as the write of a command word (R19). -/
theorem transact_start {tr : Transaction} {s t : State} (h : transact tr s = .next t) (hr : s.run = .idle)
    (hn : t.run ≠ .idle) : ∃ w i, tr = .wr 0x00 w ∧ decode w = .instr i ∧ exec i s = .next t := by
  rcases transact_cases h with ⟨w, rfl, h⟩ | ⟨w, -, rfl⟩ | ⟨w, -, rfl⟩ | ⟨w, -, rfl⟩ | ⟨o, w, -, -, rfl⟩ | ⟨o, -, rfl⟩ |
      ⟨a, v, -, rfl⟩ | ⟨a, -, rfl⟩
  · rcases writeCmd_cases h with ⟨hb, -⟩ | ⟨-, -, rfl⟩ | ⟨-, -, rfl⟩ | ⟨i, -, hd, h⟩
    · exact absurd hr hb
    · exact absurd hr hn
    · exact absurd hr hn
    · exact ⟨w, i, rfl, hd, h⟩
  all_goals simp_all

/-! ### The engine -/

/-- Everything the engine's step can do (R57). -/
theorem engineStep_cases {s t : State} (h : engineStep s = .next t) :
    (s.run = .idle ∧ t = s) ∨
      (s.run ≠ .idle ∧ s.cur = .ended ∧ t = retire s) ∨
      (∃ x y, s.run = .gray ∧ s.cur = .pos x y ∧ s.imageBytes ≤ s.pbBytes ∧ x < s.w ∧ y < s.h ∧
        t = { grayPixel x y s with cur := nextGray s.w s.h x y }) ∨
      (∃ x y f, s.run = .dither ∧ s.cur = .pos x y ∧ s.imageBytes ≤ s.pbBytes ∧ inDomain s.w s.h x y = true ∧
        factorOf s.fl = some f ∧ t = { ditherPixel f x y s with cur := nextDither s.w s.h x y }) := by
  unfold engineStep at h
  split at h
  · cases h; exact .inl ⟨‹_›, rfl⟩
  · rename_i x y hr hc
    unfold grayVisit at h
    split at h
    · cases h
    · split at h
      · rename_i hf hin
        cases h
        have := inImage_nat.mp hin
        exact .inr (.inr (.inl ⟨x, y, hr, hc, by omega, this.1, this.2, rfl⟩))
      · cases h
  · rename_i hr hc
    cases h; exact .inr (.inl ⟨by simp [hr], hc, rfl⟩)
  · rename_i x y hr hc
    unfold ditherVisit at h
    split at h
    · cases h
    · split at h
      · rename_i hf hin
        split at h
        · rename_i f hff
          cases h
          exact .inr (.inr (.inr ⟨x, y, f, hr, hc, by omega, hin, hff, rfl⟩))
        · cases h
      · cases h
  · rename_i hr hc
    cases h; exact .inr (.inl ⟨by simp [hr], hc, rfl⟩)

theorem engineStep_idle {s : State} (hr : s.run = .idle) : engineStep s = .next s := by simp [engineStep, hr]

theorem engineStep_ended {s : State} (hr : s.run ≠ .idle) (hc : s.cur = .ended) : engineStep s = .next (retire s) := by
  unfold engineStep
  rw [hc]
  cases h : s.run <;> simp_all

theorem engineStep_gray {s : State} {x y : Nat} (hr : s.run = .gray) (hc : s.cur = .pos x y)
    (hf : s.imageBytes ≤ s.pbBytes) (hx : x < s.w) (hy : y < s.h) :
    engineStep s = .next { grayPixel x y s with cur := nextGray s.w s.h x y } := by
  simp [engineStep, hr, hc, grayVisit, Nat.not_lt.mpr hf, inImage_nat.mpr ⟨hx, hy⟩]

theorem engineStep_dither {s : State} {x y : Nat} {f : Factor} (hr : s.run = .dither) (hc : s.cur = .pos x y)
    (hf : s.imageBytes ≤ s.pbBytes) (hd : inDomain s.w s.h x y = true) (hl : factorOf s.fl = some f) :
    engineStep s = .next { ditherPixel f x y s with cur := nextDither s.w s.h x y } := by
  simp [engineStep, hr, hc, ditherVisit, Nat.not_lt.mpr hf, hd, hl]

/-- A visit is a sequence of pixel writes inside the image and a move of the cursor. -/
theorem engineStep_writes {s t : State} (h : engineStep s = .next t) :
    ∃ u, ImageWrites s u ∧ t.pb = u.pb ∧ t.lost = s.lost ∧ t.width = s.width ∧ t.height = s.height ∧ t.fl = s.fl ∧
      t.pbBytes = s.pbBytes ∧ t.turns = s.turns ∧ t.hostData = s.hostData ∧ t.draws = s.draws := by
  rcases engineStep_cases h with ⟨-, rfl⟩ | ⟨-, -, rfl⟩ | ⟨x, y, -, -, -, hx, hy, rfl⟩ | ⟨x, y, f, -, -, -, hd, -, rfl⟩
  · exact ⟨_, .refl, rfl, rfl, rfl, rfl, rfl, rfl, rfl, rfl, rfl⟩
  · exact ⟨_, .refl, rfl, rfl, rfl, rfl, rfl, rfl, rfl, rfl, rfl⟩
  · exact ⟨_, grayPixel_imageWrites hx hy, rfl, rfl, rfl, rfl, rfl, rfl, rfl, rfl, rfl⟩
  · have hw := ditherPixel_imageWrites f (inDomain_lt hd).1 (inDomain_lt hd).2
    refine ⟨_, hw, rfl, ?_⟩
    rw [hw.frame]
    exact ⟨rfl, rfl, rfl, rfl, rfl, rfl, rfl, rfl⟩

/-! ### The step -/

/-- A step with no turn left is the engine's. -/
theorem step_nil {s : State} (h : s.turns = []) : step s = engineStep s := by simp [step, h]

/-- A step takes the next turn. -/
theorem step_cons {s : State} {t : Turn} {rest : List Turn} (h : s.turns = t :: rest) :
    step s = takeTurn t (s.withTurns rest) := by simp [step, h]

/-- Everything a step can do: it is the engine's, a host transaction, a poll, or reset (R136). -/
theorem step_cases {s t : State} (h : step s = .next t) :
    (s.turns = [] ∧ engineStep s = .next t) ∨
      (∃ rest, s.turns = .engine :: rest ∧ engineStep (s.withTurns rest) = .next t) ∨
      (∃ tr rest, s.turns = .host tr :: rest ∧ transact tr (s.withTurns rest) = .next t) ∨
      (∃ rest, s.turns = .wait :: rest ∧ t = waitPoll (s.withTurns rest)) ∨
      (∃ rest, s.turns = .reset :: rest ∧ t = resetEvent (s.withTurns rest)) := by
  cases ht : s.turns with
  | nil => exact .inl ⟨rfl, by rw [← h, step_nil ht]⟩
  | cons u rest =>
    rw [step_cons ht] at h
    cases u with
    | host tr => exact .inr (.inr (.inl ⟨tr, rest, rfl, h⟩))
    | engine => exact .inr (.inl ⟨rest, rfl, h⟩)
    | wait => cases h; exact .inr (.inr (.inr (.inl ⟨rest, rfl, rfl⟩)))
    | reset => cases h; exact .inr (.inr (.inr (.inr ⟨rest, rfl, rfl⟩)))

end Sys2Proof.Machine
end

