-- ==== Sys2Proof/Laws/Encoding.lean ====
section
/-!
SUPPORT. The fields of format C and of the words the encoder writes (R51, R53).
-/

namespace Sys2Proof

theorem opcField_toNat (w : Word) : (opcField w).toNat = w.toNat / 2 ^ 24 := by
  have := w.isLt
  simp only [opcField, BitVec.extractLsb'_toNat, Nat.shiftRight_eq_div_pow]
  omega

theorem rsvField_toNat (w : Word) : (rsvField w).toNat = w.toNat / 2 ^ 16 % 256 := by
  simp [rsvField, BitVec.extractLsb'_toNat, Nat.shiftRight_eq_div_pow]

theorem facField_toNat (w : Word) : (facField w).toNat = w.toNat % 2 ^ 16 := by
  simp [facField, BitVec.extractLsb'_toNat]

theorem formatC_toNat (o r : Byte) (f : Half) :
    (formatC o r f).toNat = o.toNat * 2 ^ 24 + r.toNat * 2 ^ 16 + f.toNat := by
  have h1 := r.isLt
  have h2 := f.isLt
  simp only [formatC, BitVec.toNat_append, Nat.shiftLeft_eq]
  rw [← Nat.shiftLeft_eq, ← Nat.shiftLeft_eq, ← Nat.shiftLeft_add_eq_or_of_lt h1, ← Nat.shiftLeft_add_eq_or_of_lt h2]
  simp only [Nat.shiftLeft_eq]
  ring

@[simp] theorem opcField_formatC (o r : Byte) (f : Half) : opcField (formatC o r f) = o := by
  apply BitVec.eq_of_toNat_eq
  have := r.isLt; have := f.isLt
  rw [opcField_toNat, formatC_toNat]
  omega

@[simp] theorem rsvField_formatC (o r : Byte) (f : Half) : rsvField (formatC o r f) = r := by
  apply BitVec.eq_of_toNat_eq
  have := r.isLt; have := f.isLt
  rw [rsvField_toNat, formatC_toNat]
  omega

@[simp] theorem facField_formatC (o r : Byte) (f : Half) : facField (formatC o r f) = f := by
  apply BitVec.eq_of_toNat_eq
  have := f.isLt
  rw [facField_toNat, formatC_toNat]
  omega

/-- A word is made of its three fields and nothing else (R51). -/
theorem formatC_fields (w : Word) : formatC (opcField w) (rsvField w) (facField w) = w := by
  apply BitVec.eq_of_toNat_eq
  have := w.isLt
  rw [formatC_toNat, opcField_toNat, rsvField_toNat, facField_toNat]
  omega

end Sys2Proof
end

