-- ==== Sys2Proof/Laws/PerInstr.lean ====
section
/-!
SUPPORT. What holds of every instruction as syntax, one lemma per constructor.
-/

namespace Sys2Proof.Laws

/-- The word of an instruction has `RSV = 0`, its row's opcode, and its factor or 0 in `FAC` (R53). -/
def EncodedFields.Statement (i : Instr) : Prop :=
  rsvField (encode i) = 0 ∧
    match i with
    | .gray => opcField (encode i) = 0x01 ∧ facField (encode i) = 0
    | .dither f => opcField (encode i) = 0x02 ∧ facField (encode i) = f

theorem EncodedFields.gray : EncodedFields.Statement .gray := by
  simp [EncodedFields.Statement, encode, grayOpcode]

theorem EncodedFields.dither (f : Half) : EncodedFields.Statement (.dither f) := by
  simp [EncodedFields.Statement, encode, ditherOpcode]

end Sys2Proof.Laws
end

