-- ==== Sys2Proof/Laws/Raster.lean ====
section
/-!
SUPPORT. Raster order as counting: the k-th position of a pass, the cursor after it, and the two passes as one fold over
the positions' numbers.
-/

namespace Sys2Proof.Machine

/-- A fold over the positions of a `w` x `h` image by number is the fold row by row. -/
theorem foldl_raster {α : Type} (g : α → Nat → Nat → α) (w h : Nat) (a : α) :
    (List.range (w * h)).foldl (fun t k => g t (k % w) (k / w)) a =
      (List.range h).foldl (fun t y => (List.range w).foldl (fun t x => g t x y) t) a := by
  induction h with
  | zero => simp
  | succ h ih =>
    rw [Nat.mul_succ, List.range_add, List.foldl_append, ih, List.range_succ, List.foldl_append, List.foldl_map]
    simp only [List.foldl_cons, List.foldl_nil]
    generalize (List.range h).foldl (fun t y => (List.range w).foldl (fun t x => g t x y) t) a = b
    apply List.foldl_ext
    intro b x hx
    have hx := List.mem_range.mp hx
    rw [Nat.mul_add_mod, Nat.mod_eq_of_lt hx, Nat.mul_add_div (by omega), Nat.div_eq_of_lt hx]; simp

/-- A number below a product needs a positive first factor. -/
theorem pos_of_lt_mul {w h k : Nat} (hk : k < w * h) : 0 < w := by
  rcases Nat.eq_zero_or_pos w with rfl | hw
  · simp at hk
  · exact hw

/-- The position after the `k`-th of a gray pass (R72). -/
theorem nextGray_index {w h k : Nat} (hk : k < w * h) :
    nextGray w h (k % w) (k / w) = if k + 1 < w * h then .pos ((k + 1) % w) ((k + 1) / w) else .ended := by
  have hw : 0 < w := pos_of_lt_mul hk
  have hy : k / w < h := Nat.div_lt_of_lt_mul hk
  have hx : k % w < w := Nat.mod_lt _ hw
  have hk' : k = w * (k / w) + k % w := (Nat.div_add_mod k w).symm
  generalize k / w = y at *
  generalize k % w = x at *
  subst hk'
  unfold nextGray
  by_cases h1 : x + 1 < w
  · rw [if_pos h1, if_pos, Nat.add_assoc, Nat.mul_add_mod, Nat.mod_eq_of_lt h1, Nat.mul_add_div hw, Nat.div_eq_of_lt h1]
    · simp
    have : w * (y + 1) ≤ w * h := Nat.mul_le_mul_left _ hy
    rw [Nat.mul_succ] at this; omega
  · rw [if_neg h1]
    have e : w * y + x + 1 = w * (y + 1) := by rw [Nat.mul_succ]; omega
    rw [e]
    simp [Nat.mul_div_cancel_left _ hw, hw]

/-- The first position of a gray pass (R72). -/
theorem firstGray_index (w h : Nat) : firstGray w h = if 0 < w * h then .pos (0 % w) (0 / w) else .ended := by
  unfold firstGray
  have : (1 ≤ w ∧ 1 ≤ h) ↔ 0 < w * h := by
    rw [Nat.pos_iff_ne_zero, Nat.mul_ne_zero_iff]; omega
  simp [this]

/-- `next_D` is `next_G` of the domain taken as an image of its own, one column to the right (R94). -/
theorem nextDither_eq {w h x y : Nat} (hx : 1 ≤ x) :
    nextDither w h x y =
      match nextGray (w - 2) (h - 1) (x - 1) y with
      | .pos x' y' => .pos (1 + x') y'
      | .ended => .ended := by
  unfold nextDither nextGray
  have e1 : ((x : Int) + 1 ≤ (w : Int) - 2) ↔ x - 1 + 1 < w - 2 := by omega
  have e2 : ((y : Int) + 1 ≤ (h : Int) - 2) ↔ y + 1 < h - 1 := by omega
  simp only [e1, e2]
  split_ifs <;> simp; omega

/-- `first_D` likewise (R94). -/
theorem firstDither_eq {w h : Nat} :
    firstDither w h =
      match firstGray (w - 2) (h - 1) with
      | .pos x' y' => .pos (1 + x') y'
      | .ended => .ended := by
  unfold firstDither firstGray
  have e1 : (3 ≤ w ∧ 2 ≤ h) ↔ (1 ≤ w - 2 ∧ 1 ≤ h - 1) := by omega
  simp only [e1]
  split_ifs <;> simp

/-- The position after the `k`-th of a dither pass (R94). -/
theorem nextDither_index {w h k : Nat} (hk : k < (w - 2) * (h - 1)) :
    nextDither w h (1 + k % (w - 2)) (k / (w - 2)) =
      if k + 1 < (w - 2) * (h - 1) then .pos (1 + (k + 1) % (w - 2)) ((k + 1) / (w - 2)) else .ended := by
  rw [nextDither_eq (by omega), Nat.add_sub_cancel_left, nextGray_index hk]
  split_ifs <;> rfl

/-- The `k`-th position of a dither pass lies in the domain (R91). -/
theorem inDomain_index {w h k : Nat} (hk : k < (w - 2) * (h - 1)) : inDomain w h (1 + k % (w - 2)) (k / (w - 2)) = true := by
  have hw : 0 < w - 2 := pos_of_lt_mul hk
  rw [inDomain_iff]
  have := Nat.mod_lt k hw
  have := Nat.div_lt_of_lt_mul hk
  generalize k % (w - 2) = a at *
  generalize k / (w - 2) = b at *
  omega

/-- The gray pass as one fold over the positions' numbers (R70). -/
theorem grayPass_raster (s : State) :
    grayPass s = (List.range (s.w * s.h)).foldl (fun t k => grayPixel (k % s.w) (k / s.w) t) s :=
  (foldl_raster (fun t x y => grayPixel x y t) s.w s.h s).symm

/-- The dither pass as one fold over the positions' numbers (R90). -/
theorem ditherPass_raster (f : Factor) (s : State) :
    ditherPass f s =
      (List.range ((s.w - 2) * (s.h - 1))).foldl (fun t k => ditherPixel f (1 + k % (s.w - 2)) (k / (s.w - 2)) t) s := by
  rw [foldl_raster (fun t x y => ditherPixel f (1 + x) y t) (s.w - 2) (s.h - 1) s]
  unfold ditherPass
  simp only [Nat.add_comm 1]

/-- The first `k` visits of a gray pass write the image only. -/
theorem foldl_grayPixel_imageWrites (s : State) (k : Nat) (hk : k ≤ s.w * s.h) :
    ImageWrites s ((List.range k).foldl (fun t k => grayPixel (k % s.w) (k / s.w) t) s) := by
  refine ImageWrites.foldl _ (fun t i hi ht => ?_) s .refl
  have hi : i < s.w * s.h := by have := List.mem_range.mp hi; omega
  have hw : 0 < s.w := pos_of_lt_mul hi
  exact grayPixel_imageWrites (by rw [ht.w]; exact Nat.mod_lt _ hw) (by rw [ht.h]; exact Nat.div_lt_of_lt_mul hi)

/-- The first `k` visits of a dither pass write the image only. -/
theorem foldl_ditherPixel_imageWrites (f : Factor) (s : State) (k : Nat) (hk : k ≤ (s.w - 2) * (s.h - 1)) :
    ImageWrites s ((List.range k).foldl (fun t k => ditherPixel f (1 + k % (s.w - 2)) (k / (s.w - 2)) t) s) := by
  refine ImageWrites.foldl _ (fun t i hi ht => ?_) s .refl
  have hi : i < (s.w - 2) * (s.h - 1) := by have := List.mem_range.mp hi; omega
  have := inDomain_lt (inDomain_index hi)
  exact ditherPixel_imageWrites f (by rw [ht.w]; exact this.1) (by rw [ht.h]; exact this.2)

end Sys2Proof.Machine
end

