-- ==== Sys2Proof/Laws/Pixels.lean ====
section
/-!
SUPPORT. The passes and visits as what they do to each pixel.
-/

namespace Sys2Proof.Machine

/-- What a neighbour update makes of the target pixel (R98). -/
def updatedPixel (err : Rgb Int) (p : Int) (n : Pixel) : Pixel :=
  if representable (diffusedSum err p n) then storedPixel (diffusedSum err p n) else n

/-- The target pixel after a neighbour update (R98). -/
theorem readPixel_neighbourUpdate_self (err : Rgb Int) (p : Int) {x y : Nat} {s : State} (hx : x < s.w) (hy : y < s.h) :
    (neighbourUpdate err p x y s).readPixel x y = updatedPixel err p (s.readPixel x y) := by
  rw [neighbourUpdate_inside err p hx hy, updatedPixel]; split
  · exact readPixel_writePixel_self ..
  · rfl

/-- Step 5, one entry at a time (R96). -/
theorem diffuse_cons (k : KernelEntry) (ks : List KernelEntry) (err : Rgb Int) (x y : Nat) (s : State) :
    diffuse (k :: ks) err x y s =
      diffuse ks err x y (neighbourUpdate err k.p ((x : Int) + k.dx) ((y : Int) + k.dy) s) :=
  rfl

/-- A pixel that is no target of step 5 keeps its value. -/
theorem diffuse_other (ks : List KernelEntry) (err : Rgb Int) {x y x' y' : Nat} {s : State} (hx : x' < s.w) (hy : y' < s.h)
    (h : ∀ k ∈ ks, (x : Int) + k.dx ≠ x' ∨ (y : Int) + k.dy ≠ y') :
    (diffuse ks err x y s).readPixel x' y' = s.readPixel x' y' := by
  induction ks generalizing s with
  | nil => rfl
  | cons k ks ih =>
    rw [diffuse_cons, ih (by simpa using hx) (by simpa using hy) (fun k hk => h k (List.mem_cons_of_mem _ hk))]
    exact readPixel_neighbourUpdate_other hx (h k List.mem_cons_self)

/-- A target of step 5 gets exactly its own update, whatever the order of distinct entries (R96). -/
theorem diffuse_at (ks : List KernelEntry) (err : Rgb Int) {x y x' y' : Nat} {s : State} (hx : x' < s.w) (hy : y' < s.h)
    (hn : (ks.map (fun k => (k.dx, k.dy))).Nodup) {k : KernelEntry} (hk : k ∈ ks)
    (h1 : (x : Int) + k.dx = x') (h2 : (y : Int) + k.dy = y') :
    (diffuse ks err x y s).readPixel x' y' = updatedPixel err k.p (s.readPixel x' y') := by
  induction ks generalizing s with
  | nil => cases hk
  | cons j ks ih =>
    rw [List.map_cons, List.nodup_cons] at hn
    rw [diffuse_cons]
    rcases List.mem_cons.mp hk with rfl | hk
    · rw [diffuse_other ks err (by simpa using hx) (by simpa using hy), h1, h2, readPixel_neighbourUpdate_self err _ hx hy]
      intro j hj
      by_contra hc; push Not at hc
      refine hn.1 (List.mem_map.mpr ⟨j, hj, ?_⟩)
      simp only [Prod.mk.injEq]; omega
    · rw [ih (by simpa using hx) (by simpa using hy) hn.2 hk, readPixel_neighbourUpdate_other hx]
      by_contra hc; push Not at hc
      refine hn.1 (List.mem_map.mpr ⟨k, hk, ?_⟩)
      simp only [Prod.mk.injEq]; omega

/-- The four offsets of the kernel are distinct (R14). -/
theorem kernel_offsets_nodup : (kernel.map (fun k => (k.dx, k.dy))).Nodup := by decide

/-- A target of a dither visit in the domain (R93, R98). -/
theorem readPixel_ditherPixel_target (f : Factor) {x y x' y' : Nat} {s : State} (hd : inDomain s.w s.h x y = true)
    {k : KernelEntry} (hk : k ∈ kernel) (h1 : (x : Int) + k.dx = x') (h2 : (y : Int) + k.dy = y') :
    (ditherPixel f x y s).readPixel x' y' = updatedPixel (quantError f (s.readPixel x y)) k.p (s.readPixel x' y') := by
  obtain ⟨hx, hy⟩ := inDomain_lt hd
  have hd := inDomain_iff.mp hd
  have hb : x' < s.w ∧ y' < s.h ∧ (x ≠ x' ∨ y ≠ y') := by
    simp only [kernel, List.mem_cons, List.not_mem_nil, or_false] at hk
    rcases hk with rfl | rfl | rfl | rfl <;> simp only at h1 h2 <;> omega
  simp only [ditherPixel, ditherPixelOver]
  rw [diffuse_at kernel _ (by exact hb.1) (by exact hb.2.1) kernel_offsets_nodup hk h1 h2,
    readPixel_writePixel_other _ _ hx hb.1 hb.2.2]

/-- A pixel that a dither visit neither quantizes nor updates. -/
theorem readPixel_ditherPixel_other (f : Factor) {x y x' y' : Nat} {s : State} (hx : x < s.w) (hx' : x' < s.w) (hy' : y' < s.h)
    (hne : x ≠ x' ∨ y ≠ y') (h : ∀ k ∈ kernel, (x : Int) + k.dx ≠ x' ∨ (y : Int) + k.dy ≠ y') :
    (ditherPixel f x y s).readPixel x' y' = s.readPixel x' y' := by
  simp only [ditherPixel, ditherPixelOver]
  rw [diffuse_other kernel _ (by exact hx') (by exact hy') h, readPixel_writePixel_other _ _ hx hx' hne]

/-- The visited pixel after a dither visit (R93 step 4). -/
theorem readPixel_ditherPixel_self (f : Factor) {x y : Nat} {s : State} (hx : x < s.w) (hy : y < s.h) :
    (ditherPixel f x y s).readPixel x y = storedPixel (quantized f (s.readPixel x y)) := by
  simp only [ditherPixel, ditherPixelOver]
  rw [diffuse_other kernel _ (by exact hx) (by exact hy), readPixel_writePixel_self]
  intro k hk
  simp only [kernel, List.mem_cons, List.not_mem_nil, or_false] at hk
  rcases hk with rfl | rfl | rfl | rfl <;> simp only <;> omega

/-- Two states with the same dimensions, the same pixels and the same bytes beyond the image hold the same bytes. -/
theorem byteAt_ext {s t : State} (hw : s.w = t.w) (h1 : ∀ x y, x < s.w → y < s.h → s.readPixel x y = t.readPixel x y)
    (h2 : ∀ a, s.imageBytes ≤ a → s.byteAt a = t.byteAt a) (a : Nat) : s.byteAt a = t.byteAt a := by
  by_cases ha : s.imageBytes ≤ a
  · exact h2 a ha
  · obtain ⟨x, y, c, hx, hy, hc, rfl⟩ := exists_pixelAddr (show a < 3 * s.w * s.h by unfold State.imageBytes at ha; omega)
    have h := h1 x y hx hy
    simp only [State.readPixel, Rgb.mk.injEq, ← hw] at h
    rcases (show c = 0 ∨ c = 1 ∨ c = 2 by omega) with rfl | rfl | rfl
    · exact h.1
    · exact h.2.1
    · exact h.2.2

/-- The gray pass as a fold over its positions. -/
theorem grayPass_positions (s : State) :
    grayPass s =
      ((List.range (s.w * s.h)).map (fun k => (k % s.w, k / s.w))).foldl (fun t p => grayPixel p.1 p.2 t) s := by
  rw [grayPass_raster, List.foldl_map]

/-- Gray visits of distinct positions average exactly the pixels they visit (R71). -/
theorem readPixel_foldl_grayPixel (ps : List (Nat × Nat)) (s : State) (hnd : ps.Nodup)
    (hin : ∀ p ∈ ps, p.1 < s.w ∧ p.2 < s.h) :
    let t := ps.foldl (fun t p => grayPixel p.1 p.2 t) s
    ImageWrites s t ∧ (∀ x y, x < s.w → y < s.h →
      t.readPixel x y = if (x, y) ∈ ps then grayOf (s.readPixel x y) else s.readPixel x y) := by
  induction ps generalizing s with
  | nil => exact ⟨.refl, fun x y _ _ => by simp⟩
  | cons p ps ih =>
    obtain ⟨hp, hnd⟩ := List.nodup_cons.mp hnd
    have h1 := hin p List.mem_cons_self
    obtain ⟨k1, k2⟩ := ih (grayPixel p.1 p.2 s) hnd (fun q hq => hin q (List.mem_cons_of_mem _ hq))
    refine ⟨(grayPixel_imageWrites h1.1 h1.2).trans k1, fun x y hx hy => ?_⟩
    rw [List.foldl_cons, k2 x y hx hy]
    by_cases e : (x, y) = p
    · subst e
      simp [hp]
    · have hne : p.1 ≠ x ∨ p.2 ≠ y := by
        by_contra hc; push Not at hc; exact e (Prod.ext hc.1.symm hc.2.symm)
      rw [readPixel_grayPixel_other h1.1 hx hne]
      simp [e]

/-- A pixel of the image after a gray pass (R70, R71). -/
theorem readPixel_grayPass (s : State) :
    ∀ x y, x < s.w → y < s.h → (grayPass s).readPixel x y = grayOf (s.readPixel x y) := by
  intro x y hx hy
  have hw : 0 < s.w := by omega
  have := readPixel_foldl_grayPixel ((List.range (s.w * s.h)).map (fun k => (k % s.w, k / s.w))) s ?_ ?_
  · rw [grayPass_positions, this.2 x y hx hy, if_pos]
    refine List.mem_map.mpr ⟨y * s.w + x, List.mem_range.mpr (position_lt hx hy), ?_⟩
    rw [Nat.mul_add_mod', Nat.mod_eq_of_lt hx, Nat.mul_comm, Nat.mul_add_div hw, Nat.div_eq_of_lt hx]; simp
  · refine List.Nodup.map ?_ List.nodup_range
    intro a b h
    simp only [Prod.mk.injEq] at h
    rw [← Nat.div_add_mod a s.w, ← Nat.div_add_mod b s.w, h.1, h.2]
  · intro p hp
    obtain ⟨k, hk, rfl⟩ := List.mem_map.mp hp
    exact ⟨Nat.mod_lt _ hw, Nat.div_lt_of_lt_mul (List.mem_range.mp hk)⟩

end Sys2Proof.Machine
end

