-- ==== Sys2Proof/Laws/Run.lean ====
section
/-!
SUPPORT. Runs of several steps.
-/

namespace Sys2Proof.Machine

@[simp] theorem runFor_zero (s : State) : s.runFor 0 = .next s := rfl

/-- A run whose first step goes on. -/
theorem runFor_succ_next {s t : State} (h : step s = .next t) (n : Nat) : s.runFor (n + 1) = t.runFor n := by
  simp only [State.runFor, Host.Core.run]
  have : Sys2Proof.core.step s = .next t := h
  rw [this]

theorem runFor_one {s t : State} (h : step s = .next t) : s.runFor 1 = .next t := by
  rw [runFor_succ_next h]; rfl

/-- A run in two parts. -/
theorem runFor_add {s t : State} {m : Nat} (h : s.runFor m = .next t) (n : Nat) : s.runFor (m + n) = t.runFor n := by
  induction m generalizing s with
  | zero => cases h; simp
  | succ m ih =>
    cases hs : step s with
    | next u =>
      rw [runFor_succ_next hs] at h
      rw [show m + 1 + n = m + n + 1 by omega, runFor_succ_next hs, ih h]
    | fault r =>
      have : Sys2Proof.core.step s = .fault r := hs
      simp [State.runFor, Host.Core.run, this] at h
    | refused r =>
      have : Sys2Proof.core.step s = .refused r := hs
      simp [State.runFor, Host.Core.run, this] at h

end Sys2Proof.Machine
end

