-- ==== Sys2Proof/Tests/Slice0.lean ====
section
/-!
SUPPORT. Tests. Expected values are the spec's own: 95_test_vectors.md unless a test names another file. The witnesses show
that the hypotheses of the statements can be met.
-/

namespace Sys2Proof.Tests

open Sys2Proof.Machine

/-- An idle machine with a `w` x `h` image from address 0 on, in a memory of 24 bytes. -/
def loaded (w h : Half) (bytes : List Byte) : State :=
  { State.powerUp 24 with width := w, height := h, pb := (List.range bytes.length).zip bytes }

/-- The same machine, running. -/
def running (run : Run) (cur : Cursor) (f : Half) (s : State) : State := { s with run := run, cur := cur, fl := f }

/-- The bytes at the addresses from 0 on. -/
def bytesOf (s : State) (n : Nat) : List Byte := (List.range n).map s.byteAt

/-- A property of the next state, false where the step stops. -/
def nextSatisfies (o : Outcome) (p : State → Bool) : Bool :=
  match o with
  | .next t => p t
  | .fault _ => false
  | .refused _ => false

/-! ### Well-formedness: one ill-formed term for the one check -/

theorem test_dither_zero_is_ill_formed : (Instr.dither 0).wellFormed = false := by decide
theorem test_dither_one_is_well_formed : (Instr.dither 1).wellFormed = true := by decide

/-! ### Decoding and encoding: words written out from format C (V-E) -/

theorem test_decode_gray : decode 0b00000001_00000000_0000000000000000 = .instr .gray := by decide
theorem test_decode_dither_4 : decode 0b00000010_00000000_0000000000000100 = .instr (.dither 4) := by decide
theorem test_decode_dither_256 : decode 0b00000010_00000000_0000000100000000 = .instr (.dither 256) := by decide
theorem test_decode_bad_factor : decode 0x02000000 = .badFactor := by decide
theorem test_decode_gray_with_operand : decode 0x01000001 = .reserved := by decide
theorem test_decode_reserved_before_factor : decode 0x02010000 = .reserved := by decide
theorem test_decode_gray_with_reserved_bits : decode 0x01010000 = .reserved := by decide
theorem test_decode_opcode_3 : decode 0x03000000 = .reserved := by decide
theorem test_encode_dither_65535 : encode (.dither 65535) = 0x0200FFFF := by decide
theorem test_table_word_gray : decodeTableWord 32 0x01000000 = some .gray := by decide
theorem test_table_word_zero_factor : decodeTableWord 32 0x02000000 = none := by decide

/-! ### The quantizer (V-Q) and division (01_notation.md R7) -/

theorem test_qlevel_150_4 : qlevel 150 ⟨4, by decide⟩ = 126 := by decide
theorem test_qlevel_63_4 : qlevel 63 ⟨4, by decide⟩ = 0 := by decide
theorem test_qlevel_255_65535 : qlevel 255 ⟨65535, by decide⟩ = 0 := by decide
theorem test_tdiv_truncates : tdiv (-15) 16 = 0 ∧ tdiv (-17) 16 = -1 := by decide

/-! ### GRAY: V-G3 and V-G6 as one engine step -/

theorem test_gray_visit :
    nextSatisfies (step (running .gray (.pos 0 0) 0 (loaded 2 1 [100, 150, 200, 9, 9, 8])))
      (fun t => bytesOf t 6 == [150, 150, 150, 9, 9, 8] && t.cur == .pos 1 0) = true := by decide

theorem test_gray_last_visit :
    nextSatisfies (step (running .gray (.pos 0 0) 0 (loaded 1 1 [255, 254, 254])))
      (fun t => bytesOf t 3 == [254, 254, 254] && t.cur == .ended) = true := by decide

/-! ### DITHER: V-D1 and V-D3 as one engine step -/

/-- The image of V-D1: 3x2, gray. -/
def imageVD1 : List Byte := [0, 0, 0, 200, 200, 200, 100, 100, 100, 50, 50, 50, 60, 60, 60, 70, 70, 70]

/-- The image of V-D3: 3x2, in colour. -/
def imageVD3 : List Byte := [1, 2, 3, 254, 64, 10, 250, 0, 0, 100, 100, 100, 200, 255, 7, 252, 9, 9]

theorem test_dither_visit_all_applied :
    nextSatisfies (step (running .dither (.pos 1 0) 2 (loaded 3 2 imageVD1)))
      (fun t => bytesOf t 18 == [0, 0, 0, 127, 127, 127, 131, 131, 131, 63, 63, 63, 82, 82, 82, 74, 74, 74]
        && t.cur == .ended) = true := by decide

theorem test_dither_visit_triple_discard :
    nextSatisfies (step (running .dither (.pos 1 0) 4 (loaded 3 2 imageVD3)))
      (fun t => bytesOf t 18 == [1, 2, 3, 189, 63, 0, 250, 0, 0, 112, 100, 101, 220, 255, 10, 252, 9, 9]) = true := by decide

/-! ### Witnesses: the hypotheses of the statements can be met -/

/-- An idle machine whose 4x2 image fills its memory exactly. -/
def idleFull : State := loaded 4 2 [1, 2, 3, 4, 5, 6, 7, 8, 9, 10, 11, 12, 13, 14, 15, 16, 17, 18, 19, 20, 21, 22, 23, 24]

/-- An idle machine whose 3x3 image of 27 bytes does not fit its memory of 24. -/
def idleTooLarge : State := loaded 3 3 []

/-- A gray pass before its first visit. -/
def busyGray : State := running .gray (.pos 0 0) 0 idleFull

/-- A dither pass before its second and last visit. -/
def busyDither : State := running .dither (.pos 2 0) 4 idleFull

/-- A pass before its retire step. -/
def retiring : State := running .dither .ended 4 idleFull

/-- With one transaction of the host before the machine. -/
def withHost (t : Transaction) (s : State) : State := s.withTurns [.host t]

theorem witness_DecodeIsTheTotalFunction :
    ((0x01000000 : Word).toNat / 2 ^ 24 = 0x01 ∧ (0x01000000 : Word).toNat / 2 ^ 16 % 2 ^ 8 = 0 ∧
      (0x01000000 : Word).toNat % 2 ^ 16 = 0) ∧
    ((0x0200FFFF : Word).toNat / 2 ^ 24 = 0x02 ∧ (0x0200FFFF : Word).toNat / 2 ^ 16 % 2 ^ 8 = 0 ∧
      (0x0200FFFF : Word).toNat % 2 ^ 16 ≠ 0) ∧
    ((0x02000000 : Word).toNat / 2 ^ 24 = 0x02 ∧ (0x02000000 : Word).toNat / 2 ^ 16 % 2 ^ 8 = 0 ∧
      (0x02000000 : Word).toNat % 2 ^ 16 = 0) ∧
    (0x03000000 : Word).toNat / 2 ^ 24 ≠ 0x01 ∧ (0x03000000 : Word).toNat / 2 ^ 24 ≠ 0x02 ∧ (1 : Half) ≠ 0 := by decide

theorem witness_DecodeEncodeRoundTrip :
    Instr.gray.wellFormed = true ∧ (Instr.dither 1).wellFormed = true ∧ (Instr.dither 65535).wellFormed = true ∧
      decode 0x02000001 = .instr (.dither 1) := by decide

theorem witness_StepRunsTheWrittenCommand :
    (withHost (.wr 0x00 0x02000004) busyGray).turns = .host (.wr 0x00 0x02000004) :: [] ∧
      decode 0x02000004 = .instr (.dither 4) ∧ (Instr.dither 4).wellFormed = true := by decide

theorem witness_GrayCommandIsAccepted :
    idleFull.run = .idle ∧ 3 * idleFull.width.toNat * idleFull.height.toNat = idleFull.pbBytes := by decide

theorem witness_DitherCommandIsAccepted :
    idleFull.run = .idle ∧ (65535 : Half) ≠ 0 ∧ 3 * idleFull.width.toNat * idleFull.height.toNat = idleFull.pbBytes := by
  decide

theorem witness_CommandWriteRefusals_busy :
    (withHost (.wr 0x00 0) busyGray).turns = .host (.wr 0x00 0) :: [] ∧ (withHost (.wr 0x00 0) busyGray).run ≠ .idle := by
  decide

theorem witness_CommandWriteRefusals_op :
    (withHost (.wr 0x00 0x02010000) idleFull).turns = .host (.wr 0x00 0x02010000) :: [] ∧
      (withHost (.wr 0x00 0x02010000) idleFull).run = .idle ∧ decode 0x02010000 = .reserved := by decide

theorem witness_CommandWriteRefusals_factor :
    (withHost (.wr 0x00 0x02000000) idleTooLarge).turns = .host (.wr 0x00 0x02000000) :: [] ∧
      (withHost (.wr 0x00 0x02000000) idleTooLarge).run = .idle ∧ decode 0x02000000 = .badFactor := by decide

theorem witness_CommandWriteRefusals_dim :
    (withHost (.wr 0x00 0x01000000) idleTooLarge).turns = .host (.wr 0x00 0x01000000) :: [] ∧
      (withHost (.wr 0x00 0x01000000) idleTooLarge).run = .idle ∧ decode 0x01000000 = .instr .gray ∧
      (withHost (.wr 0x00 0x01000000) idleTooLarge).pbBytes < 3 * idleTooLarge.width.toNat * idleTooLarge.height.toNat := by
  decide

theorem witness_RefusalChangesOneFlag :
    (withHost (.wr 0x00 0x01000000) idleTooLarge).turns = .host (.wr 0x00 0x01000000) :: [] ∧
      ¬ (3 * idleTooLarge.width.toNat * idleTooLarge.height.toNat ≤ idleTooLarge.pbBytes) := by decide

theorem witness_CommandFrame : ∃ t, exec .gray idleFull = .next t ∧ t.run = .gray ∧ t.cur = .pos 0 0 := ⟨_, rfl, by decide⟩

theorem witness_CommandFrame_dither : ∃ t, exec (.dither 4) idleFull = .next t ∧ t.run = .dither ∧ t.fl = 4 :=
  ⟨_, rfl, by decide⟩

theorem witness_CmdIsWriteOnly_read : (withHost (.rd 0x00) busyGray).turns = .host (.rd 0x00) :: [] := by decide

theorem witness_CmdIsWriteOnly_start :
    ∃ t, step (withHost (.wr 0x00 0x01000000) idleFull) = .next t ∧
      (withHost (.wr 0x00 0x01000000) idleFull).run = .idle ∧ t.run ≠ .idle := ⟨_, rfl, by decide⟩

theorem witness_DimensionRegisters :
    (withHost (.rd 0x08) busyGray).turns = .host (.rd 0x08) :: [] ∧
    (withHost (.rd 0x0C) busyGray).turns = .host (.rd 0x0C) :: [] ∧
    (withHost (.wr 0x08 0xFFFF0003) idleFull).turns = .host (.wr 0x08 0xFFFF0003) :: [] ∧
    (withHost (.wr 0x0C 5) idleFull).turns = .host (.wr 0x0C 5) :: [] ∧
    (withHost (.wr 0x0C 5) idleFull).run = .idle ∧ (withHost (.wr 0x0C 5) busyGray).run ≠ .idle ∧
    (withHost (.wr 0x0C 5) busyGray).turns = .host (.wr 0x0C 5) :: [] := by decide

theorem witness_DimensionRegisters_engine : ∃ t, engineStep busyGray = .next t ∧ t.cur = .pos 1 0 := ⟨_, rfl, by decide⟩

theorem witness_ReservedOffsetsReadZero :
    (0x10 ≤ 0x10 ∨ 0x10 % 4 ≠ 0) ∧ (0x10 ≤ 0x05 ∨ 0x05 % 4 ≠ 0) ∧
    (withHost (.rd 0x10) busyGray).turns = .host (.rd 0x10) :: [] ∧
    (withHost (.wr 0x05 1) idleFull).turns = .host (.wr 0x05 1) :: [] ∧
    idleFull.run = idleFull.run ∧ idleFull.status = retiring.status := by decide

theorem witness_StatusReadsAsTheTable : (withHost (.rd 0x04) busyGray).turns = .host (.rd 0x04) :: [] := by decide

theorem witness_FlagsAreStickyAndCleared_write :
    (withHost (.wr 0x04 0x3E) busyGray).turns = .host (.wr 0x04 0x3E) :: [] := by decide

theorem witness_FlagsAreStickyAndCleared_keep :
    ∃ t, step (withHost (.wr 0x08 1) { idleFull with status := ⟨true, true, true, true, true⟩ }) = .next t ∧
      t.status.errOp = true := ⟨_, rfl, by decide⟩

theorem witness_FlagsAreStickyAndCleared_retire :
    ∃ t, step retiring = .next t ∧ retiring.run ≠ .idle ∧ retiring.cur = .ended ∧ retiring.turns = [] :=
  ⟨_, rfl, by decide⟩

theorem witness_FlagsAreStickyAndCleared_reset :
    ∃ t, step (busyGray.withTurns [.reset]) = .next t ∧ (busyGray.withTurns [.reset]).turns.head? = some .reset :=
  ⟨_, rfl, by decide⟩

theorem witness_FlagsRiseOnlyByTheirCause_op :
    ∃ t, step (withHost (.wr 0x00 0) idleFull) = .next t ∧ t.status.errOp = true ∧ idleFull.status.errOp = false :=
  ⟨_, rfl, by decide⟩

theorem witness_FlagsRiseOnlyByTheirCause_factor :
    ∃ t, step (withHost (.wr 0x00 0x02000000) idleFull) = .next t ∧ t.status.errFactor = true ∧
      idleFull.status.errFactor = false := ⟨_, rfl, by decide⟩

theorem witness_FlagsRiseOnlyByTheirCause_dim :
    ∃ t, step (withHost (.wr 0x00 0x02000004) idleTooLarge) = .next t ∧ t.status.errDim = true ∧
      idleTooLarge.status.errDim = false := ⟨_, rfl, by decide⟩

theorem witness_FlagsRiseOnlyByTheirCause_busy :
    ∃ t, step (withHost (.pbw 0 1) busyGray) = .next t ∧ t.status.errBusy = true ∧ busyGray.status.errBusy = false :=
  ⟨_, rfl, by decide⟩

theorem witness_FlagsRiseOnlyByTheirCause_done :
    ∃ t, step retiring = .next t ∧ t.status.done = true ∧ retiring.status.done = false := ⟨_, rfl, by decide⟩

theorem witness_FlagsAreReadByNothing :
    (∃ t, step busyDither = .next t) ∧ ∃ r, step (running .dither (.pos 1 0) 0 idleFull) = .fault r := ⟨⟨_, rfl⟩, _, rfl⟩

theorem witness_ChannelAddressesTileTheImage :
    (0 : Nat) < 65535 ∧ (2 : Nat) < 3 ∧ 65534 < (65535 : Half).toNat ∧ pixelAddr 4 3 1 2 = 23 := by decide

theorem witness_BufferPortWhileIdle :
    (withHost (.pbw 23 7) idleFull).run = .idle ∧ (withHost (.pbw 23 7) idleFull).turns = .host (.pbw 23 7) :: [] ∧
    23 < idleFull.pbBytes ∧ idleFull.pbBytes ≤ 24 ∧
    (withHost (.pbr 24) idleFull).turns = .host (.pbr 24) :: [] := by decide

theorem witness_BusyViolationsAreIgnored :
    (withHost (.wr 0x00 0) busyGray).run ≠ .idle ∧ (withHost (.wr 0x00 0) busyGray).turns = .host (.wr 0x00 0) :: [] ∧
    (withHost (.wr 0x08 0) busyGray).turns = .host (.wr 0x08 0) :: [] ∧
    (withHost (.wr 0x0C 0) busyGray).turns = .host (.wr 0x0C 0) :: [] ∧
    (withHost (.pbw 0 0) busyGray).turns = .host (.pbw 0 0) :: [] ∧ (withHost (.pbr 0) busyGray).turns = .host (.pbr 0) :: [] ∧
    (withHost (.rd 0x04) busyGray).turns = .host (.rd 0x04) :: [] ∧
    (withHost (.wr 0x04 2) busyGray).turns = .host (.wr 0x04 2) :: [] := by decide

theorem witness_UnwrittenByteIsStable :
    ∃ t, step (withHost (.pbw 0 1) (loaded 4 2 [])) = .next t ∧
      (withHost (.pbw 0 1) (loaded 4 2 [])).turns.head? ≠ some .reset ∧
      Memory.get? (withHost (.pbw 0 1) (loaded 4 2 [])).pb 1 = none ∧ Memory.get? t.pb 1 = none := ⟨_, rfl, by decide⟩

theorem witness_EngineStaysInsideTheImage :
    ∃ t, engineStep busyDither = .next t ∧ 3 * busyDither.width.toNat * busyDither.height.toNat ≤ 24 := ⟨_, rfl, by decide⟩

theorem witness_RetireAndStepCounts_gray :
    ∃ t, exec .gray idleFull = .next t ∧ idleFull.run = .idle ∧ idleFull.turns = [] ∧ t.run = .gray := ⟨_, rfl, by decide⟩

theorem witness_RetireAndStepCounts_dither :
    ∃ t, exec (.dither 4) idleFull = .next t ∧ idleFull.run = .idle ∧ idleFull.turns = [] ∧ (4 : Half) ≠ 0 ∧
      t.run = .dither := ⟨_, rfl, by decide⟩

theorem witness_RetireAndStepCounts_empty_gray :
    ∃ t, exec .gray (loaded 0 5 []) = .next t ∧ t.run ≠ (loaded 0 5 []).run ∧ (loaded 0 5 []).width = 0 := ⟨_, rfl, by decide⟩

theorem witness_RetireAndStepCounts_empty_dither :
    ∃ t, exec (.dither 4) (loaded 2 2 []) = .next t ∧ t.run ≠ (loaded 2 2 []).run ∧ (loaded 2 2 []).width.toNat < 3 :=
  ⟨_, rfl, by decide⟩

theorem witness_OnlyRetireOrResetEndsAPass :
    (∃ t, step retiring = .next t ∧ retiring.run ≠ .idle ∧ t.run ≠ retiring.run) ∧
    ∃ t, step (busyGray.withTurns [.reset]) = .next t ∧ busyGray.run ≠ .idle ∧ t.run ≠ busyGray.run :=
  ⟨⟨_, rfl, by decide⟩, _, rfl, by decide⟩

theorem witness_PassParametersAreConstant :
    ∃ t, step busyDither = .next t ∧ busyDither.run ≠ .idle ∧ busyDither.turns.head? ≠ some .reset := ⟨_, rfl, by decide⟩

/-- The running machine meets the invariant. -/
theorem busyGray_inv : busyGray.Inv where
  memory_canonical := by decide
  memory_bounded := by decide
  image_fits := by decide
  cursor_in_domain := by decide
  factor_positive := by decide
  done_only_idle := by decide

theorem witness_InterleavingDoesNotChangeThePass :
    busyGray.Inv ∧ (∀ t ∈ [Turn.host (.pbw 0 1), .engine, .host (.rd 0x04), .engine], t.hostOrEngine = true) ∧
      [Turn.host (.pbw 0 1), .engine, .host (.rd 0x04), .engine].count .engine < busyGray.stepsLeft :=
  ⟨busyGray_inv, by decide, by decide⟩

theorem witness_MachineIsNeverStuck : busyGray.Inv := busyGray_inv

theorem witness_InvariantKeptByEveryStep : busyGray.Inv ∧ ∃ t, step busyGray = .next t := ⟨busyGray_inv, _, rfl⟩

theorem witness_WaitEnds : (busyGray.withTurns [.wait]).Inv ∧ (busyGray.withTurns [.wait]).turns = .wait :: [] :=
  ⟨⟨by decide, by decide, by decide, by decide, by decide, by decide⟩, rfl⟩

theorem witness_GrayVisitResult :
    (running .gray (.pos 3 1) 0 idleFull).run = .gray ∧ (running .gray (.pos 3 1) 0 idleFull).cur = .pos 3 1 ∧
      (running .gray (.pos 3 1) 0 idleFull).turns = [] ∧ 3 < idleFull.width.toNat ∧ 1 < idleFull.height.toNat ∧
      3 * idleFull.width.toNat * idleFull.height.toNat ≤ idleFull.pbBytes := by decide

theorem witness_GrayRunsItsBigStep :
    idleFull.run = .idle ∧ idleFull.turns = [] ∧ 3 * idleFull.width.toNat * idleFull.height.toNat ≤ idleFull.pbBytes := by
  decide

theorem witness_GrayPassAverages : 3 < idleFull.width.toNat ∧ 1 < idleFull.height.toNat := by decide

theorem witness_GrayOrderIsUnobservable :
    [(1, 0), (0, 0)].Nodup ∧
      ∀ p : Nat × Nat, p ∈ [(1, 0), (0, 0)] ↔ p.1 < (loaded 2 1 []).width.toNat ∧ p.2 < (loaded 2 1 []).height.toNat := by
  refine ⟨by decide, fun p => ?_⟩
  obtain ⟨x, y⟩ := p
  have hw : (loaded 2 1 []).width.toNat = 2 := rfl
  have hh : (loaded 2 1 []).height.toNat = 1 := rfl
  simp only [List.mem_cons, Prod.mk.injEq, List.not_mem_nil, or_false, hw, hh]
  omega

theorem witness_QlevelFormula : 256 ≤ (⟨256, by decide⟩ : Factor).val := by decide

theorem witness_QlevelProperties : (62 : Byte).toNat ≤ (63 : Byte).toNat := by decide

theorem witness_QlevelLevels : (⟨255, by decide⟩ : Factor).val ≤ 255 ∧ 255 ≤ (⟨255, by decide⟩ : Factor).val := by decide

theorem witness_QlevelLargestErrors : (⟨256, by decide⟩ : Factor).val = 256 := by decide

theorem witness_NeighbourUpdateResult_outside :
    ¬ ((0 : Int) ≤ 4 ∧ (4 : Int) ≤ (idleFull.width.toNat : Int) - 1 ∧ (0 : Int) ≤ 0 ∧ (0 : Int) ≤ (idleFull.height.toNat : Int) - 1) := by
  decide

/-- V-D3's target (1,1): the sum of its G channel is the upper edge, 255. -/
theorem witness_NeighbourUpdateResult_applied :
    1 < (loaded 3 2 imageVD3).width.toNat ∧ 1 < (loaded 3 2 imageVD3).height.toNat ∧
      (255 : Int) = ((loaded 3 2 imageVD3).readPixel 1 1).g.toNat + ((1 : Int) * 5).sign * (((1 : Int) * 5).natAbs / 16 : Nat) ∧
      (220 : Int) = ((loaded 3 2 imageVD3).readPixel 1 1).r.toNat + ((65 : Int) * 5).sign * (((65 : Int) * 5).natAbs / 16 : Nat) := by
  decide

/-- V-D3's target (2,1): the sum of its R channel is just out of range, 256. -/
theorem witness_NeighbourUpdateResult_discarded :
    2 < (loaded 3 2 imageVD3).width.toNat ∧ 1 < (loaded 3 2 imageVD3).height.toNat ∧
      (256 : Int) = ((loaded 3 2 imageVD3).readPixel 2 1).r.toNat + ((65 : Int) * 1).sign * (((65 : Int) * 1).natAbs / 16 : Nat) := by
  decide

theorem witness_DitherVisitResult :
    busyDither.run = .dither ∧ busyDither.cur = .pos 2 0 ∧ busyDither.turns = [] ∧ busyDither.fl ≠ 0 ∧
      2 + 2 ≤ busyDither.width.toNat ∧ 0 + 2 ≤ busyDither.height.toNat ∧
      3 * busyDither.width.toNat * busyDither.height.toNat ≤ busyDither.pbBytes := by decide

theorem witness_KernelOrderIsUnobservable :
    inDomain busyDither.w busyDither.h 2 0 = true ∧ kernel.reverse.Perm kernel := ⟨by decide, List.reverse_perm _⟩

theorem witness_TargetsLieInsideTheImage :
    (1 : Nat) ≤ 1 ∧ ((1 : Nat) : Int) ≤ ((3 : Nat) : Int) - 2 ∧ ((0 : Nat) : Int) ≤ ((2 : Nat) : Int) - 2 := by decide

theorem witness_SharesLoseAtMostThree : 255 ≤ 255 := by decide

theorem witness_DitherRunsItsBigStep :
    idleFull.run = .idle ∧ idleFull.turns = [] ∧ (⟨4, by decide⟩ : Factor).val = (4 : Half).toNat ∧
      3 * idleFull.width.toNat * idleFull.height.toNat ≤ idleFull.pbBytes := by decide

theorem witness_EmptyDomainChangesNothing :
    (3 ≤ 3 ∧ 2 ≤ 2) ∧ (loaded 2 4 []).run = .idle ∧ (loaded 2 4 []).turns = [] ∧ (4 : Half) ≠ 0 ∧
      3 * (loaded 2 4 []).width.toNat * (loaded 2 4 []).height.toNat ≤ (loaded 2 4 []).pbBytes ∧
      (loaded 2 4 []).width.toNat < 3 := by decide

theorem witness_BoundaryPixelsNeverDecrease :
    0 < idleFull.width.toNat ∧ 1 < idleFull.height.toNat ∧
      ¬ (1 ≤ 0 ∧ 0 + 2 ≤ idleFull.width.toNat ∧ 1 + 2 ≤ idleFull.height.toNat) := by decide

theorem witness_DomainPixelsEndOnLevels :
    1 ≤ 2 ∧ 2 + 2 ≤ idleFull.width.toNat ∧ 0 + 2 ≤ idleFull.height.toNat ∧ 256 ≤ (⟨256, by decide⟩ : Factor).val := by decide

theorem witness_Factor255ChangesNothing : (⟨255, by decide⟩ : Factor).val = 255 := by decide

theorem witness_GrayImageStaysGray : (loaded 1 1 [7, 7, 7]).grayImage := by
  intro x y hx hy
  obtain rfl : x = 0 := by have : (loaded 1 1 [7, 7, 7]).w = 1 := rfl; omega
  obtain rfl : y = 0 := by have : (loaded 1 1 [7, 7, 7]).h = 1 := rfl; omega
  decide

theorem witness_GrayImageStaysGray_visit : (loaded 3 2 imageVD1).grayImage ∧ inDomain 3 2 1 0 = true := by
  refine ⟨fun x y hx hy => ?_, by decide⟩
  have hx : x < 3 := hx
  have hy : y < 2 := hy
  have key : ∀ x < 3, ∀ y < 2, ((loaded 3 2 imageVD1).readPixel x y).r = ((loaded 3 2 imageVD1).readPixel x y).g ∧
      ((loaded 3 2 imageVD1).readPixel x y).g = ((loaded 3 2 imageVD1).readPixel x y).b := by decide
  exact key x hx y hy

theorem witness_PassDependsOnTheImageAlone :
    idleFull.width = retiring.width ∧ idleFull.height = retiring.height ∧
      ∀ a, a < 3 * idleFull.width.toNat * idleFull.height.toNat → idleFull.byteAt a = retiring.byteAt a :=
  ⟨rfl, rfl, fun _ _ => rfl⟩

theorem witness_PowerUpState : ∃ capacity, State.powerUp 24 = .powerUp capacity := ⟨24, rfl⟩

theorem witness_ResetEventResult :
    (idleFull.withTurns [.reset]).turns = .reset :: [] ∧ (busyGray.withTurns [.reset]).turns = .reset :: [] ∧
      idleFull.run = .idle ∧ busyGray.run ≠ .idle := by decide

theorem witness_ResetAndTheBuffer :
    (retiring.withTurns [.reset]).turns = .reset :: [] ∧ retiring.run ≠ .idle ∧
      3 * retiring.width.toNat * retiring.height.toNat ≤ 24 ∧ 23 < 3 * retiring.width.toNat * retiring.height.toNat := by decide

theorem witness_PseudoInstructionsExpand :
    ((1 : Int) ≤ 65535 ∧ (65535 : Int) ≤ 65535) ∧ ¬ ((1 : Int) ≤ 0 ∧ (0 : Int) ≤ 65535) := by decide

theorem witness_LoadPlacesTheImage :
    idleFull.run = .idle ∧ [1, 2, 3].length ≤ idleFull.pbBytes ∧
      assemble (.load 1 1 [1, 2, 3]) =
        some [.host (.wr 8 1), .host (.wr 12 1), .host (.pbw 0 1), .host (.pbw 1 2), .host (.pbw 2 3)] := by decide

end Sys2Proof.Tests
end

section
/-!
SUPPORT. The register port as the host sees it: what a read or write turn of the step is, what each register reads as and takes,
and what can start a pass (R12, R19 to R21).
-/

namespace Sys2Proof.Machine

/-! ### Reads -/

/-- What a register reads as depends on `RUN`, `STATUS`, `WIDTH` and `HEIGHT` alone (R21). -/
theorem regRead_congr {s t : State} (o : Nat) (hrun : s.run = t.run) (hstatus : s.status = t.status)
    (hwidth : s.width = t.width) (hheight : s.height = t.height) : regRead o s = regRead o t := by
  unfold regRead
  cases regAt o with
  | none => rfl
  | some r =>
    cases r with
    | cmd => rfl
    | status => simp only [statusWord, State.busy, hrun, hstatus]
    | width => simp only [hwidth]
    | height => simp only [hheight]

@[simp] theorem regRead_withTurns (o : Nat) (s : State) (ts : List Turn) : regRead o (s.withTurns ts) = regRead o s :=
  regRead_congr o rfl rfl rfl rfl

@[simp] theorem regRead_cmd (s : State) : regRead 0x00 s = 0 := rfl

@[simp] theorem regRead_width (s : State) : regRead 0x08 s = BitVec.ofNat 32 s.width.toNat :=
  (BitVec.ofNat_toNat 32 s.width).symm

@[simp] theorem regRead_height (s : State) : regRead 0x0C s = BitVec.ofNat 32 s.height.toNat :=
  (BitVec.ofNat_toNat 32 s.height).symm

theorem regRead_reserved {o : Nat} (h : regAt o = none) (s : State) : regRead o s = 0 := by simp only [regRead, h]

/-- A host read of a register changes only what the host has read (R61). -/
theorem step_read {s : State} {o : Nat} {rest : List Turn} (h : s.turns = .host (.rd o) :: rest) :
    step s = .next { s with turns := rest, hostData := some (regRead o s) } := by
  rw [step_cons h, ← regRead_withTurns o s rest]
  rfl

/-! ### Writes -/

/-- A host write of a register is the port's write, its turn taken (R61). -/
theorem step_write {s : State} {o : Nat} {w : Word} {rest : List Turn} (h : s.turns = .host (.wr o w) :: rest) :
    step s = regWrite o w (s.withTurns rest) := step_cons h

theorem regWrite_width (w : Word) (s : State) : regWrite 0x08 w s = .next (writeWidth w s) := rfl

theorem regWrite_height (w : Word) (s : State) : regWrite 0x0C w s = .next (writeHeight w s) := rfl

theorem regWrite_reserved {o : Nat} (h : regAt o = none) (w : Word) (s : State) : regWrite o w s = .next s := by
  simp only [regWrite, h]

/-- The offsets that R21 reserves are the ones the register map leaves out. -/
theorem regAt_reserved {o : Nat} (h : 0x10 ≤ o ∨ o % 4 ≠ 0) : regAt o = none :=
  regAt_none_iff.mpr (by omega)

/-- The 16 bits a dimension register takes of a word (R12). -/
theorem setWidth_half (w : Word) : w.setWidth 16 = BitVec.ofNat 16 (w.toNat % 2 ^ 16) := by
  apply BitVec.eq_of_toNat_eq
  simp

/-! ### What starts a pass -/

theorem engineStep_keeps_idle {s t : State} (h : engineStep s = .next t) (hr : s.run = .idle) : t.run = .idle := by
  rw [engineStep_idle hr] at h
  cases h
  exact hr

/-- A step leaves idle only by the host's write of a command word to `CMD` (R19). -/
theorem step_start {s t : State} (h : step s = .next t) (hr : s.run = .idle) (hn : t.run ≠ .idle) :
    ∃ w i, s.writesCmd w ∧ decode w = .instr i := by
  rcases step_cases h with ⟨-, he⟩ | ⟨rest, -, he⟩ | ⟨tr, rest, hts, he⟩ | ⟨rest, -, rfl⟩ | ⟨rest, -, rfl⟩
  · exact absurd (engineStep_keeps_idle he hr) hn
  · exact absurd (engineStep_keeps_idle he hr) hn
  · obtain ⟨w, i, rfl, hd, -⟩ := transact_start he hr hn
    exact ⟨w, i, by rw [State.writesCmd, hts]; rfl, hd⟩
  · exact absurd ((waitPoll_run (s.withTurns rest)).trans hr) hn
  · exact absurd (resetEvent_run _) hn

/-! ### The dimension registers -/

theorem step_writeWidth_idle {s : State} {w : Word} {rest : List Turn} (hr : s.run = .idle)
    (h : s.turns = .host (.wr 0x08 w) :: rest) :
    step s = .next { s with turns := rest, width := BitVec.ofNat 16 (w.toNat % 2 ^ 16) } := by
  rw [step_write h, regWrite_width, writeWidth_idle (s := s.withTurns rest) hr, setWidth_half]
  rfl

theorem step_writeHeight_idle {s : State} {w : Word} {rest : List Turn} (hr : s.run = .idle)
    (h : s.turns = .host (.wr 0x0C w) :: rest) :
    step s = .next { s with turns := rest, height := BitVec.ofNat 16 (w.toNat % 2 ^ 16) } := by
  rw [step_write h, regWrite_height, writeHeight_idle (s := s.withTurns rest) hr, setWidth_half]
  rfl

/-- While busy a write to either dimension only sets `ERR_BUSY` (R12). -/
theorem step_writeDimension_busy {s : State} {w : Word} {rest : List Turn} (hr : s.run ≠ .idle)
    (h : s.turns = .host (.wr 0x08 w) :: rest ∨ s.turns = .host (.wr 0x0C w) :: rest) :
    step s = .next { s with turns := rest, status := { s.status with errBusy := true } } := by
  rcases h with h | h
  · rw [step_write h, regWrite_width, writeWidth_busy (s := s.withTurns rest) hr]
    rfl
  · rw [step_write h, regWrite_height, writeHeight_busy (s := s.withTurns rest) hr]
    rfl

/-- The engine never writes a dimension register (R12). -/
theorem engineStep_dimensions {s t : State} (h : engineStep s = .next t) : t.width = s.width ∧ t.height = s.height := by
  obtain ⟨_, -, -, -, hwidth, hheight, -⟩ := engineStep_writes h
  exact ⟨hwidth, hheight⟩

/-! ### The obligations -/

/-- Settles O10: the read answers the constant of the port; a pass is started by no turn but the host's write of a command. -/
theorem cmdIsWriteOnly : Obligations.CmdIsWriteOnly :=
  ⟨fun s _ h => by rw [step_read h, regRead_cmd s], fun _ _ h hr hn => step_start h hr hn⟩

/-- Settles O11, one lemma per clause of R12. -/
theorem dimensionRegisters : Obligations.DimensionRegisters := by
  refine ⟨fun s rest => ⟨fun h => ?_, fun h => ?_⟩, fun s rest w hr => ⟨fun h => ?_, fun h => ?_⟩,
    fun s rest w hr h => ?_, fun s t h => ?_, fun s => ?_, rfl, rfl⟩
  · rw [step_read h, regRead_width]
  · rw [step_read h, regRead_height]
  · exact step_writeWidth_idle hr h
  · exact step_writeHeight_idle hr h
  · exact step_writeDimension_busy hr h
  · exact engineStep_dimensions h
  · exact ⟨resetEvent_width s, resetEvent_height s⟩

/-- Settles O12: the register map has no register at a reserved offset, so the port answers 0 and stores nothing. -/
theorem reservedOffsetsReadZero : Obligations.ReservedOffsetsReadZero := by
  refine ⟨fun s rest o w ho => ⟨fun h => ?_, fun h => ?_⟩,
    fun s t o hrun hstatus hwidth hheight => regRead_congr o hrun hstatus hwidth hheight⟩
  · rw [step_read h, regRead_reserved (regAt_reserved ho)]
  · rw [step_write h, regWrite_reserved (regAt_reserved ho)]
    rfl

end Sys2Proof.Machine
end

section
/-!
SUPPORT. The channel addresses of an image as one tiling: the range they fill, its bound, and the bytes of a pixel read (R31).
-/

namespace Sys2Proof.Machine

/-- The addresses below `3*W*H` are exactly those of the channels of the image. -/
theorem lt_imageBytes_iff_pixelAddr {w h a : Nat} :
    a < 3 * w * h ↔ ∃ x y c, x < w ∧ y < h ∧ c < 3 ∧ a = pixelAddr w x y c := by
  constructor
  · intro ha
    obtain ⟨x, y, c, hx, hy, hc, e⟩ := exists_pixelAddr ha
    exact ⟨x, y, c, hx, hy, hc, e.symm⟩
  · rintro ⟨x, y, c, hx, hy, hc, rfl⟩
    exact pixelAddr_lt hx hy hc

/-- The largest image, 65535 x 65535, has fewer than 2^34 bytes. -/
theorem imageBytes_lt (w h : Half) : 3 * w.toNat * h.toNat < 2 ^ 34 := by
  have hw : w.toNat ≤ 65535 := Nat.le_of_lt_succ w.isLt
  have hh : h.toNat ≤ 65535 := Nat.le_of_lt_succ h.isLt
  calc 3 * w.toNat * h.toNat ≤ 3 * 65535 * 65535 := Nat.mul_le_mul (Nat.mul_le_mul_left 3 hw) hh
    _ < 2 ^ 34 := by decide

/-- A pixel read takes the three bytes from the pixel's first address on, R first. -/
theorem readPixel_eq (s : State) (x y : Nat) :
    s.readPixel x y = ⟨s.byteAt (3 * (y * s.width.toNat + x)), s.byteAt (3 * (y * s.width.toNat + x) + 1),
      s.byteAt (3 * (y * s.width.toNat + x) + 2)⟩ := rfl

/-- Settles O17: every address below `3*W*H` is a channel's and no two channels share one; the bound is that of the largest
image. -/
theorem channelAddressesTileTheImage : Obligations.ChannelAddressesTileTheImage :=
  ⟨pixelAddr_eq, fun _ _ _ => lt_imageBytes_iff_pixelAddr, fun _ _ _ _ _ _ _ hx hx' hc hc' e => pixelAddr_inj hx hx' hc hc' e,
    fun w h _ _ _ hx hy hc => (pixelAddr_lt hx hy hc).trans (imageBytes_lt w h), readPixel_eq⟩

end Sys2Proof.Machine
end

section
/-!
SUPPORT. The arms of decode as the words they take: a command word is known by its three fields as numbers, each legal word and
the word with factor 0 is one `formatC`, and every other word is reserved (R53 to R55).
-/

namespace Sys2Proof

/-! ### The words of format C -/

/-- A word is the one made of three given fields exactly when its fields, as numbers, are those (R51). -/
theorem eq_formatC_iff {w : Word} {o r : Byte} {f : Half} :
    w = formatC o r f ↔
      w.toNat / 2 ^ 24 = o.toNat ∧ w.toNat / 2 ^ 16 % 2 ^ 8 = r.toNat ∧ w.toNat % 2 ^ 16 = f.toNat := by
  constructor
  · rintro rfl
    exact ⟨(opcField_toNat _).symm.trans (congrArg BitVec.toNat (opcField_formatC o r f)),
      (rsvField_toNat _).symm.trans (congrArg BitVec.toNat (rsvField_formatC o r f)),
      (facField_toNat _).symm.trans (congrArg BitVec.toNat (facField_formatC o r f))⟩
  · rintro ⟨ho, hr, hf⟩
    have ho' : opcField w = o := BitVec.eq_of_toNat_eq ((opcField_toNat w).trans ho)
    have hr' : rsvField w = r := BitVec.eq_of_toNat_eq ((rsvField_toNat w).trans hr)
    have hf' : facField w = f := BitVec.eq_of_toNat_eq ((facField_toNat w).trans hf)
    rw [← ho', ← hr', ← hf', formatC_fields]

/-- With `OPC = 0x01` and the other fields 0, the word is the word of `GRAY`. -/
theorem eq_grayWord_iff {w : Word} :
    w = formatC grayOpcode 0 0 ↔ w.toNat / 2 ^ 24 = 0x01 ∧ w.toNat / 2 ^ 16 % 2 ^ 8 = 0 ∧ w.toNat % 2 ^ 16 = 0 :=
  eq_formatC_iff

/-- With `OPC = 0x02` and `RSV = 0`, the word is a `DITHER` word, and its factor is the low 16 bits. -/
theorem eq_ditherWord {w : Word} (ho : w.toNat / 2 ^ 24 = 0x02) (hr : w.toNat / 2 ^ 16 % 2 ^ 8 = 0) :
    w = formatC ditherOpcode 0 (BitVec.ofNat 16 (w.toNat % 2 ^ 16)) :=
  eq_formatC_iff.mpr ⟨ho, hr, by rw [BitVec.toNat_ofNat, Nat.mod_mod]⟩

/-! ### Decode, one equation per arm -/

theorem decode_grayWord : decode (formatC grayOpcode 0 0) = .instr .gray := by simp [decode]

theorem decode_ditherWord {f : Half} (hf : f ≠ 0) : decode (formatC ditherOpcode 0 f) = .instr (.dither f) := by
  simp only [decode, opcField_formatC, rsvField_formatC, facField_formatC]
  rw [if_neg fun ⟨_, _, h⟩ => hf h, if_pos ⟨trivial, trivial, hf⟩]

theorem decode_zeroFactorWord : decode (formatC ditherOpcode 0 0) = .badFactor := by
  simp [decode, grayOpcode, ditherOpcode]

/-- A word that is neither the word of `GRAY` nor a `DITHER` word is reserved. -/
theorem decode_otherWord {w : Word} (hg : w ≠ formatC grayOpcode 0 0) (hd : ∀ f, w ≠ formatC ditherOpcode 0 f) :
    decode w = .reserved := by
  have hg' : ¬ (opcField w = grayOpcode ∧ rsvField w = 0 ∧ facField w = 0) := by
    rintro ⟨ho, hr, hf⟩
    exact hg (by rw [← formatC_fields w, ho, hr, hf])
  have hd' : ¬ (opcField w = ditherOpcode ∧ rsvField w = 0) := by
    rintro ⟨ho, hr⟩
    exact hd (facField w) (by rw [← ho, ← hr, formatC_fields])
  unfold decode
  rw [if_neg hg', if_neg fun ⟨ho, hr, _⟩ => hd' ⟨ho, hr⟩, if_neg fun ⟨ho, hr, _⟩ => hd' ⟨ho, hr⟩]

/-- Every word falls in one of the four arms (R55). -/
theorem decode_cases (w : Word) :
    (w = formatC grayOpcode 0 0 ∧ decode w = .instr .gray) ∨
      (∃ f, f ≠ 0 ∧ w = formatC ditherOpcode 0 f ∧ decode w = .instr (.dither f)) ∨
      (w = formatC ditherOpcode 0 0 ∧ decode w = .badFactor) ∨ decode w = .reserved := by
  by_cases hg : w = formatC grayOpcode 0 0
  · exact .inl ⟨hg, hg ▸ decode_grayWord⟩
  by_cases hd : ∃ f, w = formatC ditherOpcode 0 f
  · obtain ⟨f, rfl⟩ := hd
    by_cases hf : f = 0
    · subst hf
      exact .inr (.inr (.inl ⟨rfl, decode_zeroFactorWord⟩))
    · exact .inr (.inl ⟨f, hf, rfl, decode_ditherWord hf⟩)
  · exact .inr (.inr (.inr (decode_otherWord hg (not_exists.mp hd))))

/-! ### The words of each arm -/

theorem decode_eq_gray_iff {w : Word} : decode w = .instr .gray ↔ w = formatC grayOpcode 0 0 := by
  refine ⟨fun h => ?_, fun h => h ▸ decode_grayWord⟩
  rcases decode_cases w with ⟨hw, -⟩ | ⟨f, -, -, hd⟩ | ⟨-, hd⟩ | hd
  · exact hw
  all_goals simp [hd] at h

theorem decode_eq_dither_iff {w : Word} {f : Half} :
    decode w = .instr (.dither f) ↔ f ≠ 0 ∧ w = formatC ditherOpcode 0 f := by
  refine ⟨fun h => ⟨Machine.decode_dither_ne_zero h, ?_⟩, fun ⟨hf, hw⟩ => hw ▸ decode_ditherWord hf⟩
  rcases decode_cases w with ⟨-, hd⟩ | ⟨g, -, hw, hd⟩ | ⟨-, hd⟩ | hd
  · simp [hd] at h
  · obtain rfl : g = f := by simpa [hd] using h
    exact hw
  all_goals simp [hd] at h

theorem decode_eq_badFactor_iff {w : Word} : decode w = .badFactor ↔ w = formatC ditherOpcode 0 0 := by
  refine ⟨fun h => ?_, fun h => h ▸ decode_zeroFactorWord⟩
  rcases decode_cases w with ⟨-, hd⟩ | ⟨f, -, -, hd⟩ | ⟨hw, -⟩ | hd
  case inr.inr.inl => exact hw
  all_goals simp [hd] at h

/-! ### The obligation -/

/-- Settles O1: the word of each arm is the `formatC` its fields name, which is unique, and the `DITHER` arm has one
word for each factor that is not 0. -/
theorem decodeIsTheTotalFunction : Obligations.DecodeIsTheTotalFunction := by
  refine ⟨fun w => ⟨fun h => ?_, fun ⟨ho, hr, hf⟩ => ?_, fun h => ?_, fun hg hd => ?_⟩,
    ?_, fun f hf => ?_, fun w h => ?_, ?_⟩
  · exact decode_eq_gray_iff.mpr (eq_grayWord_iff.mpr h)
  · refine decode_eq_dither_iff.mpr ⟨fun h0 => hf ?_, eq_ditherWord ho hr⟩
    simpa using congrArg BitVec.toNat h0
  · exact decode_eq_badFactor_iff.mpr (eq_formatC_iff.mpr h)
  · refine decode_otherWord (mt eq_grayWord_iff.mp hg) fun f hw => hd ?_
    obtain ⟨ho, hr, -⟩ := eq_formatC_iff.mp hw
    exact ⟨ho, hr⟩
  · exact ⟨_, decode_eq_gray_iff.mpr rfl, fun _ => decode_eq_gray_iff.mp⟩
  · exact ⟨_, decode_eq_dither_iff.mpr ⟨hf, rfl⟩, fun _ hw => (decode_eq_dither_iff.mp hw).2⟩
  · exact (decode_eq_dither_iff.mp h).1 rfl
  · exact ⟨_, decode_eq_badFactor_iff.mpr rfl, fun _ => decode_eq_badFactor_iff.mp⟩

end Sys2Proof
end

section
/-!
SUPPORT. The gray visit channel by channel, and the gray pass over its own result (R71, R73).
-/

namespace Sys2Proof.Machine

/-! ### The gray visit -/

/-- Each channel of the visited pixel becomes the pixel's truncated average (R71). -/
theorem byteAt_grayPixel_channel (x y : Nat) (s : State) {c : Nat} (hc : c < 3) :
    ((grayPixel x y s).byteAt (pixelAddr s.w x y c)).toNat = grayLevel (s.readPixel x y) := by
  obtain ⟨hr, hg, hb⟩ := grayOf_toNat (s.readPixel x y)
  rw [← readPixel_grayPixel_self] at hr hg hb
  rcases (show c = 0 ∨ c = 1 ∨ c = 2 by omega) with rfl | rfl | rfl
  · exact hr
  · exact hg
  · exact hb

/-- A gray visit leaves every byte outside its pixel alone (R71). -/
theorem byteAt_grayPixel_other {x y : Nat} {s : State} {a : Nat} (h : ∀ c, c < 3 → a ≠ pixelAddr s.w x y c) :
    (grayPixel x y s).byteAt a = s.byteAt a :=
  byteAt_writePixel_other s x y _ h

/-- Settles O30: with no turn left the step is the visit, a write of one pixel and the move of the cursor. -/
theorem grayVisitResult : Obligations.GrayVisitResult := by
  intro s x y hrun hcur hturns hx hy hfit
  exact ⟨_, (step_nil hturns).trans (engineStep_gray hrun hcur hfit hx hy), rfl,
    fun _ hc => byteAt_grayPixel_channel x y s hc, fun _ ha => byteAt_grayPixel_other ha, rfl⟩

/-! ### The gray pass over its own result -/

/-- The sum of three equal channels has no remainder to drop (R73). -/
theorem grayLevel_gray (m : Byte) : grayLevel ⟨m, m, m⟩ = m.toNat := by
  simp only [grayLevel]
  omega

/-- A gray pixel is its own average (R73). -/
theorem grayOf_gray (m : Byte) : grayOf ⟨m, m, m⟩ = ⟨m, m, m⟩ := by
  rw [grayOf_eq, grayLevel_gray, BitVec.ofNat_toNat, BitVec.setWidth_eq]

theorem grayOf_grayOf (p : Pixel) : grayOf (grayOf p) = grayOf p := by
  rw [grayOf_eq p, grayOf_gray]

@[simp] theorem grayPass_w (s : State) : (grayPass s).w = s.w := (grayPass_imageWrites s).w
@[simp] theorem grayPass_h (s : State) : (grayPass s).h = s.h := (grayPass_imageWrites s).h
@[simp] theorem grayPass_imageBytes (s : State) : (grayPass s).imageBytes = s.imageBytes := by simp [State.imageBytes]

/-- Settles O34: the second pass averages pixels that are gray already, and writes nothing beyond the image. -/
theorem grayPassIsIdempotent : Obligations.GrayPassIsIdempotent := by
  refine ⟨fun s => byteAt_ext (grayPass_w _) (fun x y hx hy => ?_) (fun a ha => ?_), grayOf_gray⟩
  · rw [grayPass_w] at hx
    rw [grayPass_h] at hy
    rw [readPixel_grayPass _ x y hx hy, readPixel_grayPass s x y (by simpa using hx) (by simpa using hy), grayOf_grayOf]
  · exact (grayPass_imageWrites (grayPass s)).beyond (by simpa using ha)

end Sys2Proof.Machine
end

section
/-!
SUPPORT. The ranges of the quantizer's steps and its values at the corners of its operands (R80).
-/

namespace Sys2Proof.Machine

/-! ### The ranges of the steps -/

theorem factor_mul_byte_le (v : Byte) (f : Factor) : f.val * v.toNat ≤ 255 * f.val := by
  rw [Nat.mul_comm 255]
  exact Nat.mul_le_mul_left _ (Nat.le_of_lt_succ v.isLt)

theorem levelIndex_le (v : Byte) (f : Factor) : f.val * v.toNat / 255 ≤ f.val :=
  Nat.div_le_of_le_mul (factor_mul_byte_le v f)

/-- The index is at most `F`, so no level lies above the top one. -/
theorem qlevel_le_top (v : Byte) (f : Factor) : qlevel v f ≤ f.val * (255 / f.val) := by
  rw [qlevel_nat]
  exact_mod_cast Nat.mul_le_mul_right (255 / f.val) (levelIndex_le v f)

/-! ### The corner cases -/

theorem qlevel_zero (f : Factor) : qlevel 0 f = 0 := by simp [qlevel_nat]

/-- The value 255 has the index `F` exactly, so it takes the top level. -/
theorem qlevel_255 (f : Factor) : qlevel 255 f = f.val * (255 / f.val) := by
  have hk : f.val * (255 : Byte).toNat / 255 = f.val := Nat.mul_div_cancel _ (by decide)
  rw [qlevel_nat, hk]
  norm_cast

theorem dvd_of_qlevel_255_eq {f : Factor} (h : qlevel 255 f = 255) : f.val ∣ 255 := by
  rw [qlevel_255] at h
  exact ⟨255 / f.val, by exact_mod_cast h.symm⟩

/-- A factor above 255 has spacing 0. -/
theorem qlevel_of_256_le (v : Byte) {f : Factor} (hf : 256 ≤ f.val) : qlevel v f = 0 := by
  rw [qlevel_nat, Nat.div_eq_of_lt hf, Nat.mul_zero, Nat.cast_zero]

/-- The factor 255 has spacing 1, and its index is the value itself. -/
theorem qlevel_of_eq_255 (v : Byte) {f : Factor} (hf : f.val = 255) : qlevel v f = v.toNat := by
  rw [qlevel_nat, hf, Nat.mul_div_cancel_left _ (by decide), Nat.div_self (by decide), Nat.mul_one]

/-- Settles O36: the formula over natural numbers bounds each step, and the corners fix its index or its spacing. -/
theorem qlevelFormula : Obligations.QlevelFormula :=
  ⟨fun v f => ⟨qlevel_nat v f, factor_mul_byte_le v f, levelIndex_le v f, Nat.div_le_self _ _, qlevel_le_top v f,
      by exact_mod_cast Nat.mul_div_le 255 f.val⟩,
    fun f => ⟨qlevel_zero f, qlevel_255 f, dvd_of_qlevel_255_eq⟩,
    fun v _ => qlevel_of_256_le v, fun v => qlevel_of_eq_255 v rfl, by decide⟩

end Sys2Proof.Machine
end

section
/-!
SUPPORT. The neighbour update in the quotient of R7, and the dither visit byte by byte over natural numbers (R93, R94, R98).
-/

namespace Sys2Proof.Machine

/-! ### The neighbour update -/

/-- The truncating quotient is the quotient of the sizes with the sign of the dividend (R7). -/
theorem tdiv_eq_sign_mul (a : Int) (n : Nat) : tdiv a n = a.sign * ((a.natAbs / n : Nat) : Int) := by
  rcases lt_trichotomy a 0 with ha | rfl | ha
  · obtain ⟨m, rfl⟩ : ∃ m : Nat, a = -m := ⟨a.natAbs, by omega⟩
    rw [Int.sign_eq_neg_one_of_neg ha, tdiv, Int.neg_tdiv, ← tdiv, tdiv_nat, Int.natAbs_neg, Int.natAbs_natCast, neg_one_mul]
  · simp [tdiv]
  · lift a to Nat using ha.le
    rw [Int.sign_eq_one_of_pos ha, tdiv_nat, Int.natAbs_natCast, one_mul]

/-- The exact sums of a neighbour update, with the quotient written out (R98). -/
theorem eq_diffusedSum {err S : Rgb Int} {p : Int} {n : Pixel}
    (hr : S.r = n.r.toNat + (err.r * p).sign * ((err.r * p).natAbs / 16 : Nat))
    (hg : S.g = n.g.toNat + (err.g * p).sign * ((err.g * p).natAbs / 16 : Nat))
    (hb : S.b = n.b.toNat + (err.b * p).sign * ((err.b * p).natAbs / 16 : Nat)) : S = diffusedSum err p n := by
  obtain ⟨r, g, b⟩ := S
  simp only [← tdiv_eq_sign_mul] at hr hg hb
  simp only [hr, hg, hb, diffusedSum, toInts, Rgb.map, Rgb.zip, Nat.cast_ofNat]

/-- Settles O40: outside the image and out of range the update is skipped, else it is one pixel write of the exact sums. -/
theorem neighbourUpdateResult : Obligations.NeighbourUpdateResult := by
  intro s err p tx ty
  refine ⟨fun hout => ?_, ?_⟩
  · exact neighbourUpdate_outside (Bool.eq_false_iff.mpr (mt inImage_iff.mp hout))
  · rintro x y rfl rfl hx hy S hr hg hb
    obtain rfl := eq_diffusedSum hr hg hb
    rw [← representable_iff]
    refine ⟨fun hrep => ⟨_, rfl, neighbourUpdate_frame .., ?_⟩, fun hrep => ?_⟩
    · obtain ⟨hr, hg, hb⟩ := Rgb.mk.inj (storedPixel_representable hrep)
      rw [neighbourUpdate_inside err p hx hy, if_pos hrep, readPixel_writePixel_self]
      exact ⟨hr, hg, hb, fun _ ha => byteAt_writePixel_other s x y _ ha⟩
    · rw [neighbourUpdate_inside err p hx hy, if_neg hrep]

/-! ### The channels of a triple by number -/

/-- Channel `c` of a triple, in the order of the addresses (R31). -/
def channel {α : Type} (p : Rgb α) : Nat → α
  | 0 => p.r
  | 1 => p.g
  | _ => p.b

@[simp] theorem channel_map {α β : Type} (g : α → β) (p : Rgb α) : ∀ c, channel (p.map g) c = g (channel p c)
  | 0 => rfl
  | 1 => rfl
  | _ + 2 => rfl

@[simp] theorem channel_zip {α β γ : Type} (g : α → β → γ) (p : Rgb α) (q : Rgb β) :
    ∀ c, channel (p.zip g q) c = g (channel p c) (channel q c)
  | 0 => rfl
  | 1 => rfl
  | _ + 2 => rfl

/-- What holds of the three channels holds of every channel number. -/
theorem forall_channel_iff {α : Type} {P : α → Prop} {p : Rgb α} :
    (∀ c, c < 3 → P (channel p c)) ↔ P p.r ∧ P p.g ∧ P p.b := by
  refine ⟨fun h => ⟨h 0 (by decide), h 1 (by decide), h 2 (by decide)⟩, ?_⟩
  rintro ⟨hr, hg, hb⟩ (_ | _ | c) -
  exacts [hr, hg, hb]

/-- The bytes of a pixel are its channels (R31). -/
theorem byteAt_pixelAddr (s : State) (x y : Nat) {c : Nat} (hc : c < 3) :
    s.byteAt (pixelAddr s.w x y c) = channel (s.readPixel x y) c := by
  rcases (show c = 0 ∨ c = 1 ∨ c = 2 by omega) with rfl | rfl | rfl <;> rfl

/-- A triple of natural numbers is representable when none is above 255 (R98). -/
theorem representable_iff_le {t : Rgb Int} {sum : Nat → Nat} (h : ∀ c, c < 3 → channel t c = sum c) :
    representable t = true ↔ ∀ c, c < 3 → sum c ≤ 255 := by
  rw [representable_iff, ← forall_channel_iff (P := fun z => 0 ≤ z ∧ z ≤ 255)]
  refine forall₂_congr fun c hc => ?_
  rw [h c hc]
  omega

/-! ### The dither visit -/

/-- Each channel of the visited pixel becomes its level (R93 step 4). -/
theorem byteAt_ditherPixel_self (f : Factor) {x y c : Nat} {s : State} (hx : x < s.w) (hy : y < s.h) (hc : c < 3) :
    ((ditherPixel f x y s).byteAt (pixelAddr s.w x y c)).toNat =
      f.val * (s.byteAt (pixelAddr s.w x y c)).toNat / 255 * (255 / f.val) := by
  have hstored := congrArg (fun t => channel t c) (storedPixel_quantized f (s.readPixel x y))
  simp only [toInts, quantized, channel_map, qlevel_nat] at hstored
  rw [byteAt_pixelAddr s x y hc, ← ditherPixel_w f x y s, byteAt_pixelAddr _ x y hc, readPixel_ditherPixel_self f hx hy]
  exact_mod_cast hstored

/-- The exact sums of a visit's update are natural numbers, because no level lies above its value (R93, R98). -/
theorem channel_diffusedSum_quantError (f : Factor) (old n : Pixel) (m c : Nat) :
    channel (diffusedSum (quantError f old) m n) c =
      (((channel n c).toNat +
        ((channel old c).toNat - f.val * (channel old c).toNat / 255 * (255 / f.val)) * m / 16 : Nat) : Int) := by
  simp only [diffusedSum, quantError, quantized, toInts, channel_zip, channel_map, qlevel_nat]
  rw [← Nat.cast_sub (qlevel_nat_le _ _), ← Nat.cast_mul, Nat.cast_add, ← tdiv_nat]
  rfl

/-- The three bytes of a target get the exact sums if none is above 255, and stay otherwise (R98). -/
theorem byteAt_ditherPixel_target (f : Factor) {x y x' y' m : Nat} {s : State} (hd : inDomain s.w s.h x y = true)
    {k : KernelEntry} (hk : k ∈ kernel) (hx : (x : Int) + k.dx = x') (hy : (y : Int) + k.dy = y') (hp : k.p = m)
    {sum : Nat → Nat}
    (hsum : ∀ c, c < 3 → channel (diffusedSum (quantError f (s.readPixel x y)) m (s.readPixel x' y')) c = sum c) :
    ((∀ c, c < 3 → sum c ≤ 255) →
      ∀ c, c < 3 → ((ditherPixel f x y s).byteAt (pixelAddr s.w x' y' c)).toNat = sum c) ∧
    (¬ (∀ c, c < 3 → sum c ≤ 255) →
      ∀ c, c < 3 → (ditherPixel f x y s).byteAt (pixelAddr s.w x' y' c) = s.byteAt (pixelAddr s.w x' y' c)) := by
  have htarget := readPixel_ditherPixel_target f hd hk hx hy
  rw [← representable_iff_le hsum]
  refine ⟨fun hrep c hc => ?_, fun hrep c hc => ?_⟩
  all_goals rw [← ditherPixel_w f x y s, byteAt_pixelAddr _ x' y' hc, htarget, hp, updatedPixel]
  · have hstored := congrArg (fun t => channel t c) (storedPixel_representable hrep)
    simp only [toInts, channel_map, hsum c hc] at hstored
    rw [if_pos hrep]
    exact_mod_cast hstored
  · rw [if_neg hrep, ditherPixel_w, byteAt_pixelAddr s x' y' hc]

/-- A byte of no target of step 5 stays. -/
theorem byteAt_diffuse_other (ks : List KernelEntry) (err : Rgb Int) {x y a : Nat} {s : State}
    (h : ∀ k ∈ ks, ∀ x' y' : Nat, (x : Int) + k.dx = x' → (y : Int) + k.dy = y' →
      ∀ c, c < 3 → a ≠ pixelAddr s.w x' y' c) : (diffuse ks err x y s).byteAt a = s.byteAt a := by
  induction ks generalizing s with
  | nil => rfl
  | cons k ks ih =>
    rw [diffuse_cons, ih (by simpa using fun j hj => h j (List.mem_cons_of_mem _ hj))]
    rcases neighbourUpdate_cases err k.p (x + k.dx) (y + k.dy) s with e | ⟨x', y', hx, hy, -, -, -, e⟩
    · rw [e]
    · rw [e, byteAt_writePixel_other _ _ _ _ (h k List.mem_cons_self x' y' hx hy)]

/-- A byte of neither the visited pixel nor a target stays. -/
theorem byteAt_ditherPixel_other (f : Factor) {x y a : Nat} {s : State} (hself : ∀ c, c < 3 → a ≠ pixelAddr s.w x y c)
    (h : ∀ k ∈ kernel, ∀ x' y' : Nat, (x : Int) + k.dx = x' → (y : Int) + k.dy = y' →
      ∀ c, c < 3 → a ≠ pixelAddr s.w x' y' c) : (ditherPixel f x y s).byteAt a = s.byteAt a := by
  simp only [ditherPixel, ditherPixelOver]
  rw [byteAt_diffuse_other kernel _ (by exact h), byteAt_writePixel_other _ _ _ _ hself]

/-- Right of column 0 the four targets have natural coordinates (R14). -/
theorem kernel_target_iff {x y x' y' m : Nat} (hx : 1 ≤ x) :
    (∃ k ∈ kernel, (x : Int) + k.dx = x' ∧ (y : Int) + k.dy = y' ∧ k.p = m) ↔
      (x', y', m) ∈ [(x + 1, y, 7), (x - 1, y + 1, 3), (x, y + 1, 5), (x + 1, y + 1, 1)] := by
  simp only [kernel, List.mem_cons, List.not_mem_nil, or_false, exists_eq_or_imp, exists_eq_left, Prod.mk.injEq]
  omega

/-- Every numerator of the kernel is a natural number (R14). -/
theorem kernel_numerator_nat : ∀ k ∈ kernel, k.p = k.p.toNat := by decide

/-- `next_D` over natural numbers (R94). -/
theorem nextDither_nat (w h x y : Nat) :
    nextDither w h x y = if x + 3 ≤ w then .pos (x + 1) y else if y + 3 ≤ h then .pos 1 (y + 1) else .ended := by
  unfold nextDither
  have hx : (x : Int) + 1 ≤ (w : Int) - 2 ↔ x + 3 ≤ w := by omega
  have hy : (y : Int) + 1 ≤ (h : Int) - 2 ↔ y + 3 ≤ h := by omega
  simp only [hx, hy]

/-- Settles O41: with no turn left the step is the visit, whose bytes are those of the visited pixel, of the four targets, or
no byte of the five pixels. -/
theorem ditherVisitResult : Obligations.DitherVisitResult := by
  intro s x y hrun hcur hturns hfl hx1 hxw hyh hfit old new err hold hnew herr
  obtain ⟨f, hf, hval⟩ := factorOf_some hfl
  have hd : inDomain s.w s.h x y = true := inDomain_iff.mpr ⟨hx1, hxw, hyh⟩
  obtain ⟨hxlt, hylt⟩ := inDomain_lt hd
  refine ⟨_, (step_nil hturns).trans (engineStep_dither hrun hcur hfit hd hf), ?_, fun c hc => ⟨?_, ?_⟩, ?_, ?_,
    nextDither_nat ..⟩
  · rw [ditherPixel_frame]
  · rw [hnew, hold, ← hval]; exact byteAt_ditherPixel_self f hxlt hylt hc
  · rw [hnew]; exact qlevel_nat_le _ _
  · rintro ⟨x', y', m⟩ hq sum hsum
    obtain ⟨k, hk, hkx, hky, hkp⟩ := (kernel_target_iff hx1).mpr hq
    refine byteAt_ditherPixel_target f hd hk hkx hky hkp fun c hc => ?_
    rw [channel_diffusedSum_quantError, ← byteAt_pixelAddr s x y hc, ← byteAt_pixelAddr s x' y' hc, hval, hsum, herr, hnew,
      hold]
    rfl
  · intro a ha
    refine byteAt_ditherPixel_other f (ha (x, y) List.mem_cons_self) fun k hk x' y' hkx hky => ha (x', y') ?_
    have hq := (kernel_target_iff hx1).mp ⟨k, hk, hkx, hky, kernel_numerator_nat k hk⟩
    simp only [List.mem_cons, List.not_mem_nil, or_false, Prod.mk.injEq] at hq ⊢
    omega

end Sys2Proof.Machine
end

section
/-!
SUPPORT. The size of the processing domain, and a `DITHER` pass over an empty one (R91, R92).
-/

namespace Sys2Proof.Machine

/-- The domain is the columns 1 to `W-2` of the rows 0 to `H-2` (R91). -/
theorem filter_inDomain (w h : Nat) :
    (Finset.range w ×ˢ Finset.range h).filter (fun p => inDomain w h p.1 p.2 = true) =
      Finset.Ico 1 (w - 1) ×ˢ Finset.range (h - 1) := by
  ext ⟨x, y⟩
  simp only [Finset.mem_filter, Finset.mem_product, Finset.mem_range, Finset.mem_Ico, inDomain_iff]
  omega

theorem card_inDomain (w h : Nat) :
    ((Finset.range w ×ˢ Finset.range h).filter (fun p => inDomain w h p.1 p.2 = true)).card = (w - 2) * (h - 1) := by
  rw [filter_inDomain, Finset.card_product, Nat.card_Ico, Finset.card_range, Nat.sub_sub]

theorem inDomain_empty {w h : Nat} (x y : Nat) (he : w < 3 ∨ h < 2) : inDomain w h x y = false := by
  rw [Bool.eq_false_iff, ne_eq, inDomain_iff]
  omega

/-- The first position of an empty domain is END (R94). -/
theorem firstDither_empty {w h : Nat} (he : w < 3 ∨ h < 2) : firstDither w h = .ended := if_neg (by omega)

/-- `DITHER F` with `F != 0` is accepted while idle when the image fits (R56). -/
theorem exec_dither_accepts {f : Half} {s : State} (hr : s.run = .idle) (hf : f ≠ 0) (hfit : s.imageBytes ≤ s.pbBytes) :
    exec (.dither f) s = .next (accept .dither (firstDither s.w s.h) f s) := by
  simp only [exec, execDither, hf, and_false, if_false, issue_accepts hr hfit]

/-- Settles O47: the domain is a product of two ranges, and over an empty one the pass starts at END, so its only step is the
retire step. -/
theorem emptyDomainChangesNothing : Obligations.EmptyDomainChangesNothing := by
  refine ⟨fun w h _ _ => card_inDomain w h, fun w h x y => inDomain_empty x y, fun x y => ?_, ?_⟩
  · rw [inDomain_iff]
    omega
  · intro s f hrun hturns hf hfit he
    have hexec : exec (.dither f) s = .next (accept .dither .ended f s) := by
      rw [exec_dither_accepts hrun hf hfit, firstDither_empty (by exact he)]
    have hstep : step (accept .dither .ended f s) = .next (retire (accept .dither .ended f s)) := by
      rw [step_nil (by exact hturns), engineStep_ended (by simp) rfl]
    exact ⟨_, _, hexec, hstep, rfl, rfl, rfl⟩

end Sys2Proof.Machine
end

section
/-!
SUPPORT. A host write to `CMD`: what each of its refusals does, and that the flags decide nothing (R124, R125, R128).
-/

namespace Sys2Proof.Machine

/-- A host write to offset 0 is the write of a command word, its turn taken (R19). -/
theorem step_writeCmd {s : State} {w : Word} {rest : List Turn} (h : s.turns = .host (.wr 0x00 w) :: rest) :
    step s = writeCmd w (s.withTurns rest) := step_write h

/-! ### The refusals -/

/-- While busy the word is not decoded (R126). -/
theorem writeCmd_busy {w : Word} {s : State} (hr : s.run ≠ .idle) : writeCmd w s = .next (refuse .errBusy s) := by
  simp [writeCmd, hr]

theorem writeCmd_reserved {w : Word} {s : State} (hr : s.run = .idle) (hd : decode w = .reserved) :
    writeCmd w s = .next (refuse .errOp s) := by simp [writeCmd, hr, hd]

theorem writeCmd_badFactor {w : Word} {s : State} (hr : s.run = .idle) (hd : decode w = .badFactor) :
    writeCmd w s = .next (refuse .errFactor s) := by simp [writeCmd, hr, hd]

/-- A command is refused while idle when the image does not fit the memory: no other case of its execution is left, since a
decoded factor is not 0 (R125). -/
theorem writeCmd_tooLarge {w : Word} {i : Instr} {s : State} (hr : s.run = .idle) (hd : decode w = .instr i)
    (hlarge : s.pbBytes < s.imageBytes) : writeCmd w s = .next (refuse .errDim s) := by
  rw [writeCmd_instr hd]
  obtain ⟨t, ht⟩ := exec_next i s
  rcases exec_cases ht with ⟨hb, -⟩ | ⟨-, rfl, -⟩ | ⟨-, -, rfl⟩ | ⟨-, -, hfit, -⟩ | ⟨_, -, -, -, hfit, -⟩
  · exact absurd hr hb
  · exact absurd rfl (decode_dither_ne_zero hd)
  · exact ht
  · exact absurd hlarge (Nat.not_lt.mpr hfit)
  · exact absurd hlarge (Nat.not_lt.mpr hfit)

/-- Whatever is not accepted is refused, with one flag (R128). -/
theorem writeCmd_refuses {w : Word} {s : State}
    (h : ¬ (s.run = .idle ∧ (∃ i, decode w = .instr i) ∧ s.imageBytes ≤ s.pbBytes)) :
    ∃ f, writeCmd w s = .next (refuse f s) := by
  by_cases hr : s.run = .idle
  · cases hd : decode w with
    | reserved => exact ⟨_, writeCmd_reserved hr hd⟩
    | badFactor => exact ⟨_, writeCmd_badFactor hr hd⟩
    | instr i => exact ⟨_, writeCmd_tooLarge hr hd (Nat.lt_of_not_le fun hfit => h ⟨hr, ⟨i, hd⟩, hfit⟩)⟩
  · exact ⟨_, writeCmd_busy hr⟩

/-! ### The flags decide nothing -/

theorem issue_tooLarge {r : Run} {c : Cursor} {f : Half} {s : State} (hr : s.run = .idle)
    (hlarge : s.pbBytes < s.imageBytes) : issue r c f s = refuse .errDim s := by simp [issue, hr, hlarge]

/-- Issued with other flags, a command leaves the same state up to the flags. -/
theorem issue_withStatus (r : Run) (c : Cursor) (f : Half) (s : State) (st : Status) :
    ∃ st', issue r c f { s with status := st } = { issue r c f s with status := st' } := by
  rcases issue_cases r c f s with ⟨hr, e⟩ | ⟨hr, hlarge, e⟩ | ⟨hr, hfit, e⟩ <;> rw [e]
  · exact ⟨_, issue_busy hr⟩
  · exact ⟨_, issue_tooLarge hr hlarge⟩
  · exact ⟨_, issue_accepts hr hfit⟩

theorem exec_withStatus (i : Instr) (s : State) (st : Status) :
    ∃ t st', exec i s = .next t ∧ exec i { s with status := st } = .next { t with status := st' } := by
  cases i with
  | gray =>
    obtain ⟨st', e⟩ := issue_withStatus .gray (firstGray s.w s.h) s.fl s st
    exact ⟨_, st', rfl, congrArg Host.Outcome.next e⟩
  | dither f =>
    by_cases hz : s.run = .idle ∧ f = 0
    · exact ⟨_, _, if_pos hz, if_pos hz⟩
    · obtain ⟨st', e⟩ := issue_withStatus .dither (firstDither s.w s.h) f s st
      exact ⟨_, st', if_neg hz, (if_neg hz).trans (congrArg Host.Outcome.next e)⟩

/-- Written with other flags, a command word leaves the same state up to the flags (R128). -/
theorem writeCmd_withStatus (w : Word) (s : State) (st : Status) :
    ∃ t st', writeCmd w s = .next t ∧ writeCmd w { s with status := st } = .next { t with status := st' } := by
  by_cases hr : s.run = .idle
  · cases hd : decode w with
    | reserved => exact ⟨_, _, writeCmd_reserved hr hd, writeCmd_reserved hr hd⟩
    | badFactor => exact ⟨_, _, writeCmd_badFactor hr hd, writeCmd_badFactor hr hd⟩
    | instr i => simpa only [writeCmd_instr hd] using exec_withStatus i s st
  · exact ⟨_, _, writeCmd_busy hr, writeCmd_busy hr⟩

/-! ### The obligations -/

/-- Settles O7: the write is `writeCmd`, and its conditions are looked at in the order busy, word, dimensions. -/
theorem commandWriteRefusals : Obligations.CommandWriteRefusals := by
  intro s w rest h
  rw [step_writeCmd h]
  exact ⟨fun hr => writeCmd_busy hr, fun hr hd => writeCmd_reserved hr hd, fun hr hd => writeCmd_badFactor hr hd,
    fun i hr hd hlarge => writeCmd_tooLarge hr hd hlarge⟩

/-- Settles O8: what is not accepted is refused with one flag, and with other flags the write leaves the same state up to
the flags. -/
theorem refusalChangesOneFlag : Obligations.RefusalChangesOneFlag := by
  intro s w rest h
  refine ⟨fun hrefused => ?_, fun st => ?_⟩
  · rw [step_writeCmd h]
    exact writeCmd_refuses hrefused
  · obtain ⟨t, st', e, e'⟩ := writeCmd_withStatus w (s.withTurns rest) st
    exact ⟨t, _, (step_writeCmd h).trans e, (step_writeCmd (s := { s with status := st }) h).trans e', rfl, rfl, rfl, rfl⟩

end Sys2Proof.Machine
end

section
/-!
SUPPORT. The flags of `STATUS`: what raising and clearing do to each, and that an error flag is cleared by nothing but a write
to `STATUS` and reset (R18, R129).
-/

namespace Sys2Proof.Machine

/-! ### Raising and clearing a flag -/

/-- The stored bit of an error flag (R18). -/
def Status.isSet (st : Status) : ErrFlag → Bool
  | .errOp => st.errOp
  | .errFactor => st.errFactor
  | .errDim => st.errDim
  | .errBusy => st.errBusy

/-- Raising a flag sets that flag and leaves the other error flags (R128). -/
theorem isSet_raise (st : Status) (f g : ErrFlag) : (st.raise f).isSet g = (decide (g = f) || st.isSet g) := by
  cases f <;> cases g <;> rfl

theorem isSet_done (st : Status) (b : Bool) (f : ErrFlag) : Status.isSet { st with done := b } f = st.isSet f := by
  cases f <;> rfl

/-- A flag that is set again stays as it is (R129). -/
theorem raise_raise_self (st : Status) (f : ErrFlag) : (st.raise f).raise f = st.raise f := by cases f <;> rfl

/-- The order in which two flags are raised leaves no trace (R129). -/
theorem raise_comm (st : Status) (f g : ErrFlag) : (st.raise f).raise g = (st.raise g).raise f := by
  cases f <;> cases g <;> rfl

/-- A host write to offset 4 clears flags and does nothing else, in either mode (R18). -/
theorem step_writeStatus {s : State} {w : Word} {rest : List Turn} (h : s.turns = .host (.wr 0x04 w) :: rest) :
    step s = .next { s with turns := rest, status := s.status.clear w } := step_write h

/-! ### What keeps the error flags -/

/-- Every error flag of `st` is still set in `st'`. -/
def Status.KeepsErrors (st st' : Status) : Prop := ∀ f, st.isSet f = true → st'.isSet f = true

theorem keepsErrors_refl (st : Status) : st.KeepsErrors st := fun _ hf => hf

theorem keepsErrors_raise (st : Status) (g : ErrFlag) : st.KeepsErrors (st.raise g) := fun f hf => by
  rw [isSet_raise, hf, Bool.or_true]

theorem keepsErrors_done (st : Status) (b : Bool) : st.KeepsErrors { st with done := b } := fun f hf => by
  rw [isSet_done, hf]

/-- Executing a command refuses it, or accepts it and clears `DONE` alone (R56). -/
theorem exec_keepsErrors {i : Instr} {s t : State} (h : exec i s = .next t) : s.status.KeepsErrors t.status := by
  rcases exec_cases h with ⟨-, rfl⟩ | ⟨-, -, rfl⟩ | ⟨-, -, rfl⟩ | ⟨-, -, -, rfl⟩ | ⟨f, -, -, -, -, rfl⟩
  · exact keepsErrors_raise _ _
  · exact keepsErrors_raise _ _
  · exact keepsErrors_raise _ _
  · exact keepsErrors_done _ _
  · exact keepsErrors_done _ _

theorem writeCmd_keepsErrors {w : Word} {s t : State} (h : writeCmd w s = .next t) : s.status.KeepsErrors t.status := by
  rcases writeCmd_cases h with ⟨-, rfl⟩ | ⟨-, -, rfl⟩ | ⟨-, -, rfl⟩ | ⟨i, -, -, he⟩
  · exact keepsErrors_raise _ _
  · exact keepsErrors_raise _ _
  · exact keepsErrors_raise _ _
  · exact exec_keepsErrors he

theorem writeWidth_keepsErrors (w : Word) (s : State) : s.status.KeepsErrors (writeWidth w s).status := by
  by_cases hr : s.run = .idle
  · rw [writeWidth_idle hr]
    exact keepsErrors_refl _
  · rw [writeWidth_busy hr]
    exact keepsErrors_raise _ _

theorem writeHeight_keepsErrors (w : Word) (s : State) : s.status.KeepsErrors (writeHeight w s).status := by
  by_cases hr : s.run = .idle
  · rw [writeHeight_idle hr]
    exact keepsErrors_refl _
  · rw [writeHeight_busy hr]
    exact keepsErrors_raise _ _

theorem bufWrite_keepsErrors (a : Nat) (v : Byte) (s : State) : s.status.KeepsErrors (bufWrite a v s).status := by
  by_cases hr : s.run = .idle
  · rw [bufWrite_idle hr, apply_ite State.status, setByte_status, ite_self]
    exact keepsErrors_refl _
  · rw [bufWrite_busy hr]
    exact keepsErrors_raise _ _

theorem bufRead_keepsErrors (a : Nat) (s : State) : s.status.KeepsErrors (bufRead a s).status := by
  by_cases hr : s.run = .idle
  · rw [bufRead_idle hr, apply_ite State.status, answer_status, answer_status, ite_self]
    exact keepsErrors_refl _
  · rw [bufRead_busy hr]
    exact keepsErrors_raise _ _

/-- Of the host's transactions only the write to `STATUS` can clear an error flag (R129). -/
theorem transact_keepsErrors {tr : Transaction} {s t : State} (h : transact tr s = .next t)
    (hw : ∀ w, tr ≠ .wr 0x04 w) : s.status.KeepsErrors t.status := by
  rcases transact_cases h with ⟨w, -, hc⟩ | ⟨w, rfl, -⟩ | ⟨w, -, rfl⟩ | ⟨w, -, rfl⟩ | ⟨o, w, -, -, rfl⟩ | ⟨o, -, rfl⟩ |
      ⟨a, v, -, rfl⟩ | ⟨a, -, rfl⟩
  · exact writeCmd_keepsErrors hc
  · exact absurd rfl (hw w)
  · exact writeWidth_keepsErrors w s
  · exact writeHeight_keepsErrors w s
  · exact keepsErrors_refl _
  · exact keepsErrors_refl _
  · exact bufWrite_keepsErrors a v s
  · exact bufRead_keepsErrors a s

/-- The engine writes no flag but `DONE`, and that when it retires (R58). -/
theorem engineStep_keepsErrors {s t : State} (h : engineStep s = .next t) : s.status.KeepsErrors t.status := by
  rcases engineStep_cases h with ⟨-, rfl⟩ | ⟨-, -, rfl⟩ | ⟨x, y, -, -, -, -, -, rfl⟩ | ⟨x, y, f, -, -, -, -, -, rfl⟩
  · exact keepsErrors_refl _
  · exact keepsErrors_done _ _
  · exact keepsErrors_refl _
  · rw [ditherPixel_frame]
    exact keepsErrors_refl _

/-- A step that is neither reset nor a write to `STATUS` clears no error flag (R129). -/
theorem step_keepsErrors {s t : State} (h : step s = .next t) (hreset : s.turns.head? ≠ some .reset)
    (hwrite : ∀ w, s.turns.head? ≠ some (.host (.wr 0x04 w))) : s.status.KeepsErrors t.status := by
  rcases step_cases h with ⟨-, he⟩ | ⟨rest, -, he⟩ | ⟨tr, rest, hts, he⟩ | ⟨rest, -, rfl⟩ | ⟨rest, hts, -⟩
  · exact engineStep_keepsErrors he
  · exact engineStep_keepsErrors (s := s.withTurns rest) he
  · refine transact_keepsErrors (s := s.withTurns rest) he fun w htr => hwrite w ?_
    rw [hts, htr]
    rfl
  · rw [waitPoll_status]
    exact keepsErrors_refl _
  · rw [hts] at hreset
    exact absurd rfl hreset

/-! ### Retire and reset -/

/-- When the engine has the next turn, the step is its step, the turn taken (R136). -/
theorem step_engineNext {s : State} (h : s.engineNext) : ∃ ts, step s = engineStep (s.withTurns ts) := by
  rcases h with h | h
  · exact ⟨s.turns, step_nil h⟩
  · obtain ⟨rest, hts⟩ := List.head?_eq_some_iff.mp h
    exact ⟨rest, step_cons hts⟩

/-- The retire step sets `DONE` and leaves the error flags (R58, R129). -/
theorem step_retire_status {s t : State} (hr : s.run ≠ .idle) (hc : s.cur = .ended) (hn : s.engineNext)
    (h : step s = .next t) : t.status = { s.status with done := true } := by
  obtain ⟨ts, hs⟩ := step_engineNext hn
  rw [hs, engineStep_ended (s := s.withTurns ts) hr hc] at h
  cases h
  rfl

theorem step_reset_status {s t : State} (hts : s.turns.head? = some .reset) (h : step s = .next t) : t.status = .reset := by
  obtain ⟨rest, hts⟩ := List.head?_eq_some_iff.mp hts
  rw [step_cons hts] at h
  cases h
  rfl

/-! ### The obligation -/

/-- Settles O14, one lemma per clause of R129. -/
theorem flagsAreStickyAndCleared : Obligations.FlagsAreStickyAndCleared := by
  refine ⟨fun s rest w h => ?_, raise_raise_self, raise_comm, fun s t h hreset hwrite => ?_,
    fun s t hr hc hn h => step_retire_status hr hc hn h, fun s t hts h => step_reset_status hts h⟩
  · refine ⟨s.status.clear w, step_writeStatus h, ?_, ?_, ?_, ?_, ?_⟩ <;> simp [Status.clear]
  · have hkept := step_keepsErrors h hreset hwrite
    exact ⟨hkept .errOp, hkept .errFactor, hkept .errDim, hkept .errBusy⟩

end Sys2Proof.Machine
end

section
/-!
SUPPORT. The encoder is the inverse of the decoder, and the words that the assembler's statements stand for (R53, R55, R59, R60).
-/

namespace Sys2Proof

/-! ### Decode and encode -/

@[simp] theorem wellFormed_gray : Instr.gray.wellFormed = true := rfl

@[simp] theorem wellFormed_dither {f : Half} : (Instr.dither f).wellFormed = true ↔ f ≠ 0 := bne_iff_ne

theorem decode_encode {i : Instr} (hi : i.wellFormed = true) : decode (encode i) = .instr i := by
  cases i with
  | gray => exact decode_grayWord
  | dither f => exact decode_ditherWord (wellFormed_dither.mp hi)

theorem encode_of_decode {w : Word} {i : Instr} (h : decode w = .instr i) : i.wellFormed = true ∧ encode i = w := by
  cases i with
  | gray => exact ⟨wellFormed_gray, (decode_eq_gray_iff.mp h).symm⟩
  | dither f =>
    obtain ⟨hf, hw⟩ := decode_eq_dither_iff.mp h
    exact ⟨wellFormed_dither.mpr hf, hw.symm⟩

/-- Settles O2: each arm of decode that gives an instruction takes exactly that instruction's word. -/
theorem decodeEncodeRoundTrip : Obligations.DecodeEncodeRoundTrip :=
  ⟨fun _ hi => decode_encode hi, fun _ _ h => encode_of_decode h⟩

/-- Settles O3, by evaluation of the eight words. -/
theorem writtenWordsDecode : Obligations.WrittenWordsDecode := by
  unfold Obligations.WrittenWordsDecode
  decide

/-! ### The words of the assembler -/

namespace Machine

/-- An operand from 1 to 65535 is the low half of its word, below opcode 0x02 (R53, R59). -/
theorem encode_dither_ofInt {f : Int} (h1 : 1 ≤ f) (h2 : f ≤ 65535) :
    encode (.dither (BitVec.ofInt 16 f)) = BitVec.ofInt 32 (0x02000000 + f) := by
  apply BitVec.eq_of_toNat_eq
  rw [encode, formatC_toNat, BitVec.toNat_ofInt, BitVec.toNat_ofInt]
  have hopc : ditherOpcode.toNat = 2 := rfl
  have hrsv : (0 : Byte).toNat = 0 := rfl
  omega

theorem ditherWord_eq (f : Int) :
    ditherWord f = if 1 ≤ f ∧ f ≤ 65535 then some (BitVec.ofInt 32 (0x02000000 + f)) else none := by
  unfold ditherWord
  split
  · rename_i h
    rw [encode_dither_ofInt h.1 h.2]
  · rfl

/-- Settles O56: every expansion is made of the command words of `GRAY` and of `DITHER` with the operand. -/
theorem pseudoInstructionsExpand : Obligations.PseudoInstructionsExpand := by
  refine ⟨rfl, rfl, fun f => ?_, rfl, rfl, fun f => ?_⟩
  · have hgray : encode .gray = 0x01000000 := by decide
    simp only [assemble, fsditherTurns, ditherWord_eq, cmdTurn, hgray]
    split <;> rfl
  · simp only [assemble, ditherWord_eq, cmdTurn]
    split <;> rfl

end Machine

end Sys2Proof
end

section
/-!
SUPPORT. The two commands: what executing one changes and what it leaves, when it is accepted, and that a step runs the command
the host writes (R15, R16, R56).
-/

namespace Sys2Proof.Machine

/-! ### Frame -/

/-- Executing a command refuses it, or accepts it, a `GRAY` with the latch it finds (R15, R56). -/
theorem exec_refuses_or_accepts {i : Instr} {s t : State} (h : exec i s = .next t) :
    (∃ f, t = refuse f s) ∨ ∃ r c f, t = accept r c f s ∧ (i = .gray → f = s.fl) := by
  rcases exec_cases h with ⟨-, e⟩ | ⟨-, -, e⟩ | ⟨-, -, e⟩ | ⟨-, -, -, e⟩ | ⟨f, -, rfl, -, -, e⟩
  · exact .inl ⟨_, e⟩
  · exact .inl ⟨_, e⟩
  · exact .inl ⟨_, e⟩
  · exact .inr ⟨_, _, _, e, fun _ => rfl⟩
  · exact .inr ⟨_, _, _, e, fun hg => nomatch hg⟩

/-- Settles O9: a refusal and an acceptance write the command registers and the flags alone. -/
theorem commandFrame : Obligations.CommandFrame := by
  intro i s t h
  rcases exec_refuses_or_accepts h with ⟨f, rfl⟩ | ⟨r, c, f, rfl, hfl⟩
  · exact ⟨byteAt_congr rfl rfl, rfl, rfl, rfl, rfl, rfl, rfl, rfl, rfl, fun _ => rfl, .inr ⟨f, rfl, rfl, rfl, rfl⟩⟩
  · exact ⟨byteAt_congr rfl rfl, rfl, rfl, rfl, rfl, rfl, rfl, rfl, rfl, hfl, .inl rfl⟩

/-! ### Acceptance -/

/-- `GRAY` is accepted while idle when the image fits (R56). -/
theorem exec_gray_accepts {s : State} (hr : s.run = .idle) (hfit : s.imageBytes ≤ s.pbBytes) :
    exec .gray s = .next (accept .gray (firstGray s.w s.h) s.fl s) := by
  rw [exec, execGray, issue_accepts hr hfit]

/-- Settles O5: the accepted `GRAY` starts at `first_G`. -/
theorem grayCommandIsAccepted : Obligations.GrayCommandIsAccepted := fun _ hr hfit => exec_gray_accepts hr hfit

/-- Settles O6: the accepted `DITHER` starts at `first_D`. -/
theorem ditherCommandIsAccepted : Obligations.DitherCommandIsAccepted := fun _ _ hr hf hfit => exec_dither_accepts hr hf hfit

/-! ### The step by whose turn it is -/

/-- Everything a step can do, the engine's step said once for a turn of its own and for no turn left (R136). -/
theorem step_turn_cases {s t : State} (h : step s = .next t) :
    (s.engineNext ∧ ∃ ts, engineStep (s.withTurns ts) = .next t) ∨
      (∃ tr rest, s.turns = .host tr :: rest ∧ transact tr (s.withTurns rest) = .next t) ∨
      (∃ rest, s.turns = .wait :: rest ∧ t = waitPoll (s.withTurns rest)) ∨
      (∃ rest, s.turns = .reset :: rest ∧ t = resetEvent (s.withTurns rest)) := by
  rcases step_cases h with ⟨hts, he⟩ | ⟨rest, hts, he⟩ | hhost | hwait | hreset
  · exact .inl ⟨.inl hts, s.turns, he⟩
  · exact .inl ⟨.inr (by rw [hts]; rfl), rest, he⟩
  · exact .inr (.inl hhost)
  · exact .inr (.inr (.inl hwait))
  · exact .inr (.inr (.inr hreset))

/-! ### The step that runs a command -/

theorem step_writtenCommand {s : State} {w : Word} {rest : List Turn} {i : Instr} (h : s.turns = .host (.wr 0x00 w) :: rest)
    (hd : decode w = .instr i) : step s = exec i { s with turns := rest } := by
  rw [step_writeCmd h, writeCmd_instr hd]
  rfl

/-- The word of an instruction, given by its number, is placed as it is (log 4). -/
theorem withFetchWord_toNat (s : State) (w : Word) : s.withFetchWord 32 w.toNat = withCommandWord s w := by
  rw [State.withFetchWord, Nat.mod_eq_of_lt w.isLt, BitVec.ofNat_toNat, BitVec.setWidth_eq]

/-- Settles O4: the turn is the write of the word, which decodes to the instruction. -/
theorem stepRunsTheWrittenCommand : Obligations.StepRunsTheWrittenCommand := by
  refine ⟨fun s w rest i h hd => step_writtenCommand h hd, fun s i hi => ?_⟩
  rw [withFetchWord_toNat]
  exact step_writtenCommand (s := withCommandWord s (encode i)) rfl (decode_encode hi)

end Sys2Proof.Machine
end

section
/-!
SUPPORT. The word that a read of `STATUS` returns, and the causes of the flags (R18, R121).
-/

namespace Sys2Proof.Machine

/-! ### The word of STATUS -/

/-- The word is its 26 zero bits with the six flags put below them one after another (R18). -/
theorem statusWord_eq_concat (s : State) :
    statusWord s = ((((((0 : BitVec 26).concat s.status.errBusy).concat s.status.errDim).concat s.status.errFactor).concat
      s.status.errOp).concat s.status.done).concat s.busy := rfl

/-- The flags by bit number (R18). -/
theorem statusWord_getLsbD (s : State) :
    (statusWord s).getLsbD 0 = s.busy ∧ (statusWord s).getLsbD 1 = s.status.done ∧
      (statusWord s).getLsbD 2 = s.status.errOp ∧ (statusWord s).getLsbD 3 = s.status.errFactor ∧
      (statusWord s).getLsbD 4 = s.status.errDim ∧ (statusWord s).getLsbD 5 = s.status.errBusy := by
  rw [statusWord_eq_concat]
  simp only [BitVec.getLsbD_concat]
  exact ⟨rfl, rfl, rfl, rfl, rfl, rfl⟩

theorem statusWord_getLsbD_high (s : State) {b : Nat} (hb : 6 ≤ b) : (statusWord s).getLsbD b = false := by
  obtain ⟨n, rfl⟩ := Nat.exists_eq_add_of_le' hb
  rw [statusWord_eq_concat]
  simp

theorem busy_eq_true_iff {s : State} : s.busy = true ↔ s.run ≠ .idle := decide_eq_true_iff

/-- Settles O13: the read answers `statusWord` and leaves the machine. -/
theorem statusReadsAsTheTable : Obligations.StatusReadsAsTheTable := by
  intro s rest h
  obtain ⟨h0, h1, h2, h3, h4, h5⟩ := statusWord_getLsbD s
  exact ⟨statusWord s, step_read h, h0 ▸ busy_eq_true_iff, h1, h2, h3, h4, h5, fun b hb => statusWord_getLsbD_high s hb⟩

/-! ### The cause of each error flag -/

/-- What a host transaction must be, and the machine before it, to set each error flag (R18, R121). -/
def RaiseCause (tr : Transaction) (s : State) : ErrFlag → Prop
  | .errOp => s.run = .idle ∧ ∃ w, tr = .wr 0x00 w ∧ decode w = .reserved
  | .errFactor => s.run = .idle ∧ ∃ w, tr = .wr 0x00 w ∧ decode w = .badFactor
  | .errDim => s.run = .idle ∧ s.pbBytes < s.imageBytes ∧ ∃ w i, tr = .wr 0x00 w ∧ decode w = .instr i
  | .errBusy => s.run ≠ .idle ∧ tr.needsIdle = true

/-- Every flag of `st'` was set in `st` already. -/
def Status.RaisesNone (st st' : Status) : Prop := st'.KeepsErrors st ∧ (st'.done = true → st.done = true)

theorem raisesNone_refl (st : Status) : st.RaisesNone st := ⟨keepsErrors_refl st, id⟩

theorem raisesNone_done_false (st : Status) : st.RaisesNone { st with done := false } :=
  ⟨fun f hf => by rwa [isSet_done] at hf, fun h => nomatch h⟩

theorem raisesNone_clear (st : Status) (w : Word) : st.RaisesNone (st.clear w) := by
  refine ⟨fun f hf => ?_, fun h => (Bool.and_eq_true_iff.mp h).1⟩
  cases f <;> exact (Bool.and_eq_true_iff.mp hf).1

/-- Written to `CMD`, a word sets one flag, of which the write is the cause, or none. -/
theorem writeCmd_status {w : Word} {s t : State} (h : writeCmd w s = .next t) :
    (∃ f, t.status = s.status.raise f ∧ RaiseCause (.wr 0x00 w) s f) ∨ s.status.RaisesNone t.status := by
  rcases writeCmd_cases h with ⟨hr, rfl⟩ | ⟨hr, hd, rfl⟩ | ⟨hr, hd, rfl⟩ | ⟨i, hr, hd, he⟩
  · exact .inl ⟨.errBusy, rfl, hr, rfl⟩
  · exact .inl ⟨.errOp, rfl, hr, w, rfl, hd⟩
  · exact .inl ⟨.errFactor, rfl, hr, w, rfl, hd⟩
  · rcases exec_cases he with ⟨hb, -⟩ | ⟨-, rfl, -⟩ | ⟨-, hlarge, rfl⟩ | ⟨-, -, -, rfl⟩ | ⟨f, -, -, -, -, rfl⟩
    · exact absurd hr hb
    · exact absurd rfl (decode_dither_ne_zero hd)
    · exact .inl ⟨.errDim, rfl, hr, hlarge, w, i, rfl, hd⟩
    · exact .inr (raisesNone_done_false _)
    · exact .inr (raisesNone_done_false _)

/-- A host transaction sets one flag, of which it is the cause, or none. -/
theorem transact_status {tr : Transaction} {s t : State} (h : transact tr s = .next t) :
    (∃ f, t.status = s.status.raise f ∧ RaiseCause tr s f) ∨ s.status.RaisesNone t.status := by
  by_cases hr : s.run = .idle
  · rcases transact_cases h with ⟨w, rfl, hc⟩ | ⟨w, -, rfl⟩ | ⟨w, -, rfl⟩ | ⟨w, -, rfl⟩ | ⟨o, w, -, -, rfl⟩ | ⟨o, -, rfl⟩ |
        ⟨a, v, -, rfl⟩ | ⟨a, -, rfl⟩
    · exact writeCmd_status hc
    · exact .inr (raisesNone_clear _ _)
    · exact .inr (by rw [writeWidth_idle hr]; exact raisesNone_refl _)
    · exact .inr (by rw [writeHeight_idle hr]; exact raisesNone_refl _)
    · exact .inr (raisesNone_refl _)
    · exact .inr (raisesNone_refl _)
    · exact .inr (by rw [bufWrite_idle hr, apply_ite State.status, setByte_status, ite_self]; exact raisesNone_refl _)
    · exact .inr (by
        rw [bufRead_idle hr, apply_ite State.status, answer_status, answer_status, ite_self]; exact raisesNone_refl _)
  · rcases transact_cases h with ⟨w, rfl, hc⟩ | ⟨w, -, rfl⟩ | ⟨w, rfl, rfl⟩ | ⟨w, rfl, rfl⟩ | ⟨o, w, -, -, rfl⟩ | ⟨o, -, rfl⟩ |
        ⟨a, v, rfl, rfl⟩ | ⟨a, rfl, rfl⟩
    · exact writeCmd_status hc
    · exact .inr (raisesNone_clear _ _)
    · exact .inl ⟨.errBusy, by rw [writeWidth_busy hr]; rfl, hr, rfl⟩
    · exact .inl ⟨.errBusy, by rw [writeHeight_busy hr]; rfl, hr, rfl⟩
    · exact .inr (raisesNone_refl _)
    · exact .inr (raisesNone_refl _)
    · exact .inl ⟨.errBusy, by rw [bufWrite_busy hr]; rfl, hr, rfl⟩
    · exact .inl ⟨.errBusy, by rw [bufRead_busy hr]; rfl, hr, rfl⟩

theorem transact_raise_cause {tr : Transaction} {s t : State} (h : transact tr s = .next t) {f : ErrFlag}
    (ht : t.status.isSet f = true) (hs : s.status.isSet f = false) : RaiseCause tr s f := by
  rcases transact_status h with ⟨g, e, hcause⟩ | ⟨hnone, -⟩
  · rw [e, isSet_raise, hs, Bool.or_false, decide_eq_true_iff] at ht
    exact ht ▸ hcause
  · exact absurd (hnone f ht) (Bool.eq_false_iff.mp hs)

theorem transact_done {tr : Transaction} {s t : State} (h : transact tr s = .next t) (ht : t.status.done = true) :
    s.status.done = true := by
  rcases transact_status h with ⟨g, e, -⟩ | ⟨-, hdone⟩
  · rwa [e, raise_done] at ht
  · exact hdone ht

/-- The engine sets no flag but `DONE`, and that at END (R58). -/
theorem engineStep_status {s t : State} (h : engineStep s = .next t) :
    t.status = s.status ∨ s.run ≠ .idle ∧ s.cur = .ended ∧ t.status = { s.status with done := true } := by
  rcases engineStep_cases h with ⟨-, rfl⟩ | ⟨hr, hc, rfl⟩ | ⟨x, y, -, -, -, -, -, rfl⟩ | ⟨x, y, f, -, -, -, -, -, rfl⟩
  · exact .inl rfl
  · exact .inr ⟨hr, hc, rfl⟩
  · exact .inl rfl
  · exact .inl (ditherPixel_status f x y s)

theorem engineStep_isSet {s t : State} (h : engineStep s = .next t) (f : ErrFlag) : t.status.isSet f = s.status.isSet f := by
  rcases engineStep_status h with e | ⟨-, -, e⟩
  · rw [e]
  · rw [e, isSet_done]

/-- Reset leaves no flag set (R24). -/
theorem isSet_reset (f : ErrFlag) : Status.reset.isSet f = false := by cases f <;> rfl

/-- An error flag that a step sets is set by a host transaction, its cause (R18, R121). -/
theorem step_raise_cause {s t : State} (h : step s = .next t) {f : ErrFlag} (ht : t.status.isSet f = true)
    (hs : s.status.isSet f = false) : ∃ tr, s.turns.head? = some (.host tr) ∧ RaiseCause tr s f := by
  have hne : t.status.isSet f ≠ s.status.isSet f := by rw [ht, hs]; decide
  rcases step_turn_cases h with ⟨-, ts, he⟩ | ⟨tr, rest, hts, he⟩ | ⟨rest, -, rfl⟩ | ⟨rest, -, rfl⟩
  · exact absurd (engineStep_isSet he f) hne
  · refine ⟨tr, by rw [hts]; rfl, ?_⟩
    have hcause := transact_raise_cause he ht hs
    cases f <;> exact hcause
  · rw [waitPoll_status] at hne
    exact absurd rfl hne
  · rw [resetEvent_status, isSet_reset] at ht
    cases ht

/-- `DONE` is set by the retire step alone (R18, R58). -/
theorem step_done_cause {s t : State} (h : step s = .next t) (ht : t.status.done = true) (hs : s.status.done = false) :
    s.run ≠ .idle ∧ s.cur = .ended ∧ s.engineNext := by
  have hne : t.status.done ≠ s.status.done := by rw [ht, hs]; decide
  rcases step_turn_cases h with ⟨hnext, ts, he⟩ | ⟨tr, rest, -, he⟩ | ⟨rest, -, rfl⟩ | ⟨rest, -, rfl⟩
  · rcases engineStep_status he with e | ⟨hr, hc, -⟩
    · exact absurd (congrArg Status.done e) hne
    · exact ⟨hr, hc, hnext⟩
  · exact absurd (transact_done he ht) (Bool.eq_false_iff.mp hs)
  · rw [waitPoll_status] at hne
    exact absurd rfl hne
  · cases ht

/-- Settles O15: a flag that rises is an error flag set by the transaction that causes it, or `DONE` set by the retire step. -/
theorem flagsRiseOnlyByTheirCause : Obligations.FlagsRiseOnlyByTheirCause := by
  refine fun s t h => ⟨fun ht hs => ?_, fun ht hs => ?_, fun ht hs => ?_, fun ht hs => ?_,
    fun ht hs => step_done_cause h ht hs⟩
  · obtain ⟨_, hhead, hr, w, rfl, hd⟩ := step_raise_cause (f := .errOp) h ht hs
    exact ⟨hr, w, hhead, hd⟩
  · obtain ⟨_, hhead, hr, w, rfl, hd⟩ := step_raise_cause (f := .errFactor) h ht hs
    exact ⟨hr, w, hhead, hd⟩
  · obtain ⟨_, hhead, hr, hlarge, w, i, rfl, hd⟩ := step_raise_cause (f := .errDim) h ht hs
    exact ⟨hr, hlarge, w, i, hhead, hd⟩
  · obtain ⟨tr, hhead, hr, hneeds⟩ := step_raise_cause (f := .errBusy) h ht hs
    exact ⟨hr, tr, hhead, hneeds⟩

end Sys2Proof.Machine
end

section
/-!
SUPPORT. Two machines that differ in the flags alone step alike: what a transaction, the engine and a step make of the flags of
the state they start from (10_state.md section 7).
-/

namespace Sys2Proof.Machine

/-- Two outcomes that agree up to the flags and what the host has read: next states that differ there alone, or the same
fault. -/
inductive AlikeButFlags : Outcome → Outcome → Prop where
  | next (t : State) (st : Status) (hd : Option Word) :
      AlikeButFlags (.next t) (.next { t with status := st, hostData := hd })
  | fault (r : Fault) : AlikeButFlags (.fault r) (.fault r)

/-- Two outcomes chosen by the same condition are alike when both choices are. -/
theorem AlikeButFlags.ite {c : Prop} [Decidable c] {o o' p p' : Outcome} (hpos : c → AlikeButFlags o p)
    (hneg : ¬ c → AlikeButFlags o' p') : AlikeButFlags (if c then o else o') (if c then p else p') := by
  split
  · exact hpos ‹_›
  · exact hneg ‹_›

/-! ### Host transactions -/

theorem writeCmd_alike (w : Word) (s : State) (st : Status) :
    AlikeButFlags (writeCmd w s) (writeCmd w { s with status := st }) := by
  obtain ⟨t, st', e, e'⟩ := writeCmd_withStatus w s st
  rw [e, e']
  exact .next t st' t.hostData

theorem writeWidth_alike (w : Word) (s : State) (st : Status) :
    AlikeButFlags (.next (writeWidth w s)) (.next (writeWidth w { s with status := st })) := by
  by_cases hr : s.run = .idle
  · rw [writeWidth_idle hr, writeWidth_idle (by exact hr)]
    exact .next _ st s.hostData
  · rw [writeWidth_busy hr, writeWidth_busy (by exact hr)]
    exact .next (refuse .errBusy s) _ s.hostData

theorem writeHeight_alike (w : Word) (s : State) (st : Status) :
    AlikeButFlags (.next (writeHeight w s)) (.next (writeHeight w { s with status := st })) := by
  by_cases hr : s.run = .idle
  · rw [writeHeight_idle hr, writeHeight_idle (by exact hr)]
    exact .next _ st s.hostData
  · rw [writeHeight_busy hr, writeHeight_busy (by exact hr)]
    exact .next (refuse .errBusy s) _ s.hostData

theorem bufWrite_alike (a : Nat) (v : Byte) (s : State) (st : Status) :
    AlikeButFlags (.next (bufWrite a v s)) (.next (bufWrite a v { s with status := st })) := by
  by_cases hr : s.run = .idle
  · rw [bufWrite_idle hr, bufWrite_idle (by exact hr), apply_ite Host.Outcome.next, apply_ite Host.Outcome.next]
    exact .ite (fun _ => .next (s.setByte a v) st s.hostData) (fun _ => .next s st s.hostData)
  · rw [bufWrite_busy hr, bufWrite_busy (by exact hr)]
    exact .next (refuse .errBusy s) _ s.hostData

theorem bufRead_alike (a : Nat) (s : State) (st : Status) :
    AlikeButFlags (.next (bufRead a s)) (.next (bufRead a { s with status := st })) := by
  by_cases hr : s.run = .idle
  · rw [bufRead_idle hr, bufRead_idle (by exact hr), apply_ite Host.Outcome.next, apply_ite Host.Outcome.next]
    exact .ite (fun _ => .next (answer _ s) st _) (fun _ => .next (answer _ s) st _)
  · rw [bufRead_busy hr, bufRead_busy (by exact hr)]
    exact .next (answer _ { refuse .errBusy s with draws := s.draws + 1 }) _ _

theorem transact_alike (tr : Transaction) (s : State) (st : Status) :
    AlikeButFlags (transact tr s) (transact tr { s with status := st }) := by
  cases tr with
  | wr o w =>
    simp only [transact, regWrite]
    rcases regAt_cases o with ⟨-, e⟩ | ⟨-, e⟩ | ⟨-, e⟩ | ⟨-, e⟩ | ⟨-, -, -, -, e⟩ <;> rw [e]
    · exact writeCmd_alike w s st
    · exact .next (clearFlags w s) (st.clear w) s.hostData
    · exact writeWidth_alike w s st
    · exact writeHeight_alike w s st
    · exact .next s st s.hostData
  | rd o => exact .next (answer (regRead o s) s) st (some (regRead o { s with status := st }))
  | pbw a v => exact bufWrite_alike a v s st
  | pbr a => exact bufRead_alike a s st

/-! ### The engine -/

/-- A gray visit reads the image and the dimensions alone. -/
theorem grayVisit_alike (x y : Nat) (s : State) (st : Status) :
    AlikeButFlags (grayVisit x y s) (grayVisit x y { s with status := st }) :=
  .ite (fun _ => .fault _) fun _ => .ite
    (fun _ => .next { grayPixel x y s with cur := nextGray s.w s.h x y } st s.hostData) (fun _ => .fault _)

/-- So do the accesses of a dither visit. -/
theorem ditherPixel_withStatus (f : Factor) (x y : Nat) (s : State) (st : Status) :
    ditherPixel f x y { s with status := st } = { ditherPixel f x y s with status := st } := by
  have hbuffer : SameBuffer { s with status := st } s := ⟨rfl, rfl, rfl, rfl⟩
  rw [ditherPixel_frame f x y s, ditherPixel_frame f x y { s with status := st }, (hbuffer.ditherPixel f x y).1]

theorem ditherVisit_alike (x y : Nat) (s : State) (st : Status) :
    AlikeButFlags (ditherVisit x y s) (ditherVisit x y { s with status := st }) := by
  refine .ite (fun _ => .fault _) fun _ => .ite (fun _ => ?_) (fun _ => .fault _)
  simp only
  cases factorOf s.fl with
  | none => exact .fault _
  | some f =>
    simp only [ditherPixel_withStatus]
    exact .next { ditherPixel f x y s with cur := nextDither s.w s.h x y } st _

theorem engineStep_eq_grayVisit {s : State} {x y : Nat} (hr : s.run = .gray) (hc : s.cur = .pos x y) :
    engineStep s = grayVisit x y s := by simp only [engineStep, hr, hc]

theorem engineStep_eq_ditherVisit {s : State} {x y : Nat} (hr : s.run = .dither) (hc : s.cur = .pos x y) :
    engineStep s = ditherVisit x y s := by simp only [engineStep, hr, hc]

/-- An engine that is busy is at END, or at a position of one of the two passes (R57). -/
theorem busy_cases {s : State} (hr : s.run ≠ .idle) :
    s.cur = .ended ∨ ∃ x y, s.cur = .pos x y ∧ (s.run = .gray ∨ s.run = .dither) := by
  cases s.cur with
  | ended => exact .inl rfl
  | pos x y =>
    refine .inr ⟨x, y, rfl, ?_⟩
    cases h : s.run with
    | idle => exact absurd h hr
    | gray => exact .inl rfl
    | dither => exact .inr rfl

theorem engineStep_alike (s : State) (st : Status) :
    AlikeButFlags (engineStep s) (engineStep { s with status := st }) := by
  by_cases hr : s.run = .idle
  · rw [engineStep_idle hr, engineStep_idle (by exact hr)]
    exact .next s st s.hostData
  · rcases busy_cases hr with hc | ⟨x, y, hc, hg | hd⟩
    · rw [engineStep_ended hr hc, engineStep_ended (by exact hr) (by exact hc)]
      exact .next (retire s) _ s.hostData
    · rw [engineStep_eq_grayVisit hg hc, engineStep_eq_grayVisit (by exact hg) (by exact hc)]
      exact grayVisit_alike x y s st
    · rw [engineStep_eq_ditherVisit hd hc, engineStep_eq_ditherVisit (by exact hd) (by exact hc)]
      exact ditherVisit_alike x y s st

/-! ### The step -/

theorem waitPoll_alike (s : State) (st : Status) :
    AlikeButFlags (.next (waitPoll s)) (.next (waitPoll { s with status := st })) := by
  by_cases hr : s.run = .idle
  · rw [waitPoll_idle hr, waitPoll_idle (by exact hr)]
    exact .next (answer _ s) st _
  · rw [waitPoll_busy hr, waitPoll_busy (by exact hr)]
    exact .next ((answer _ s).withTurns _) st _

theorem takeTurn_alike (u : Turn) (s : State) (st : Status) :
    AlikeButFlags (takeTurn u s) (takeTurn u { s with status := st }) := by
  cases u with
  | host tr => exact transact_alike tr s st
  | engine => exact engineStep_alike s st
  | wait => exact waitPoll_alike s st
  | reset => exact .next (resetEvent s) _ s.hostData

theorem step_alike (s : State) (st : Status) : AlikeButFlags (step s) (step { s with status := st }) := by
  by_cases hts : s.turns = []
  · rw [step_nil hts, step_nil (by exact hts)]
    exact engineStep_alike s st
  · obtain ⟨u, rest, hts⟩ := List.exists_cons_of_ne_nil hts
    rw [step_cons hts, step_cons (by exact hts)]
    exact takeTurn_alike u (s.withTurns rest) st

/-- Settles O16: every turn reads the flags only to write flags or to answer the host. -/
theorem flagsAreReadByNothing : Obligations.FlagsAreReadByNothing := by
  refine fun s st => ⟨fun t h => ?_, fun r h => ?_⟩
  · have halike := step_alike s st
    rw [h] at halike
    generalize step { s with status := st } = o at halike
    cases halike
    exact ⟨_, rfl, rfl⟩
  · have halike := step_alike s st
    rw [h] at halike
    generalize step { s with status := st } = o at halike
    cases halike
    rfl

end Sys2Proof.Machine
end

section
/-!
SUPPORT. The buffer port in both modes, and what no step but a reset changes: the capacity, the bytes nobody has written, the
parameters of a pass (R5, R33 to R35, R126, R152).
-/

namespace Sys2Proof.Machine

/-! ### The buffer port -/

/-- A host access of the buffer port is the port's, its turn taken (R61). -/
theorem step_bufWrite {s : State} {a : Nat} {v : Byte} {rest : List Turn} (h : s.turns = .host (.pbw a v) :: rest) :
    step s = .next (bufWrite a v (s.withTurns rest)) := step_cons h

theorem step_bufRead {s : State} {a : Nat} {rest : List Turn} (h : s.turns = .host (.pbr a) :: rest) :
    step s = .next (bufRead a (s.withTurns rest)) := step_cons h

theorem step_bufWrite_idle {s : State} {a : Nat} {v : Byte} {rest : List Turn} (hr : s.run = .idle)
    (h : s.turns = .host (.pbw a v) :: rest) :
    step s = .next (if a < s.pbBytes then (s.withTurns rest).setByte a v else s.withTurns rest) := by
  rw [step_bufWrite h, bufWrite_idle (by exact hr), withTurns_pbBytes]

theorem step_bufRead_idle {s : State} {a : Nat} {rest : List Turn} (hr : s.run = .idle)
    (h : s.turns = .host (.pbr a) :: rest) :
    step s = .next { s with turns := rest, hostData := some (if a < s.pbBytes then (s.byteAt a).setWidth 32 else 0) } := by
  rw [step_bufRead h, bufRead_idle (by exact hr), withTurns_pbBytes]
  split <;> rfl

/-- Settles O18: while idle an access inside the memory is one of one byte, and one outside does nothing or answers 0. -/
theorem bufferPortWhileIdle : Obligations.BufferPortWhileIdle := by
  intro s rest a hr
  refine ⟨fun v h => ⟨fun ha => ?_, fun ha => ?_⟩, fun h => ⟨fun ha => ?_, fun ha => ?_⟩⟩
  · refine ⟨Memory.set s.pb a v, ?_, byteAt_setByte_self (s.withTurns rest) a v,
      fun b hb => byteAt_setByte_other (s.withTurns rest) v hb⟩
    rw [step_bufWrite_idle hr h, if_pos ha]
    rfl
  · rw [step_bufWrite_idle hr h, if_neg (Nat.not_lt.mpr ha)]
    rfl
  · rw [step_bufRead_idle hr h, if_pos ha, BitVec.ofNat_toNat]
  · rw [step_bufRead_idle hr h, if_neg (Nat.not_lt.mpr ha)]

theorem step_bufWrite_busy {s : State} {a : Nat} {v : Byte} {rest : List Turn} (hr : s.run ≠ .idle)
    (h : s.turns = .host (.pbw a v) :: rest) :
    step s = .next { s with turns := rest, status := { s.status with errBusy := true } } := by
  rw [step_bufWrite h, bufWrite_busy (by exact hr)]
  rfl

theorem step_bufRead_busy {s : State} {a : Nat} {rest : List Turn} (hr : s.run ≠ .idle)
    (h : s.turns = .host (.pbr a) :: rest) :
    step s = .next
      { s with turns := rest, status := { s.status with errBusy := true },
               hostData := some ((Config.busyByte s.draws).setWidth 32), draws := s.draws + 1 } := by
  rw [step_bufRead h, bufRead_busy (by exact hr)]
  rfl

theorem step_writeCmd_busy {s : State} {w : Word} {rest : List Turn} (hr : s.run ≠ .idle)
    (h : s.turns = .host (.wr 0x00 w) :: rest) :
    step s = .next { s with turns := rest, status := { s.status with errBusy := true } } := by
  rw [step_writeCmd h, writeCmd_busy (by exact hr)]
  rfl

/-- A host transaction is the next turn of a busy machine: the pass is where it was (R126). -/
theorem step_transact_busy {s : State} {tr : Transaction} {rest : List Turn} (hr : s.run ≠ .idle)
    (h : s.turns = .host tr :: rest) : ∃ t, step s = .next t ∧ s.samePass t ∧ t.turns = rest := by
  obtain ⟨t, ht⟩ := transact_next tr (s.withTurns rest)
  exact ⟨t, (step_cons h).trans ht, transact_busy (s := s.withTurns rest) hr ht⟩

/-- Settles O19: each access that needs the idle machine is refused, each other one is what it is while idle. -/
theorem busyViolationsAreIgnored : Obligations.BusyViolationsAreIgnored := by
  intro s tr rest hr h
  refine ⟨?_, ?_, ?_, ?_, ?_, step_transact_busy hr h⟩
  · rintro o w rfl (rfl | rfl | rfl)
    · exact step_writeCmd_busy hr h
    · exact step_writeDimension_busy hr (.inl h)
    · exact step_writeDimension_busy hr (.inr h)
  · rintro a v rfl
    exact step_bufWrite_busy hr h
  · rintro a rfl
    exact ⟨_, step_bufRead_busy hr h⟩
  · rintro o rfl
    exact ⟨_, step_read h⟩
  · rintro w rfl
    exact step_writeStatus h

/-! ### What a step keeps -/

theorem writeCmd_refuses_or_accepts {w : Word} {s t : State} (h : writeCmd w s = .next t) :
    (∃ f, t = refuse f s) ∨ ∃ r c f, t = accept r c f s := by
  rcases writeCmd_cases h with ⟨-, e⟩ | ⟨-, -, e⟩ | ⟨-, -, e⟩ | ⟨i, -, -, he⟩
  · exact .inl ⟨_, e⟩
  · exact .inl ⟨_, e⟩
  · exact .inl ⟨_, e⟩
  · rcases exec_refuses_or_accepts he with hf | ⟨r, c, f, e, -⟩
    · exact .inl hf
    · exact .inr ⟨r, c, f, e⟩

/-- No host transaction changes the capacity or leaves a byte unspecified anew. -/
theorem transact_pbBytes_lost {tr : Transaction} {s t : State} (h : transact tr s = .next t) :
    t.pbBytes = s.pbBytes ∧ t.lost = s.lost := by
  rcases transact_cases h with ⟨w, -, hc⟩ | ⟨w, -, rfl⟩ | ⟨w, -, rfl⟩ | ⟨w, -, rfl⟩ | ⟨o, w, -, -, rfl⟩ | ⟨o, -, rfl⟩ |
      ⟨a, v, -, rfl⟩ | ⟨a, -, rfl⟩
  · rcases writeCmd_refuses_or_accepts hc with ⟨f, rfl⟩ | ⟨r, c, f, rfl⟩ <;> exact ⟨rfl, rfl⟩
  · exact ⟨rfl, rfl⟩
  · exact ⟨writeWidth_pbBytes w s, writeWidth_lost w s⟩
  · exact ⟨writeHeight_pbBytes w s, writeHeight_lost w s⟩
  · exact ⟨rfl, rfl⟩
  · exact ⟨rfl, rfl⟩
  · exact ⟨bufWrite_pbBytes a v s, bufWrite_lost a v s⟩
  · exact ⟨bufRead_pbBytes a s, bufRead_lost a s⟩

theorem engineStep_pbBytes_lost {s t : State} (h : engineStep s = .next t) : t.pbBytes = s.pbBytes ∧ t.lost = s.lost := by
  obtain ⟨_, -, -, hlost, -, -, -, hbytes, -⟩ := engineStep_writes h
  exact ⟨hbytes, hlost⟩

/-- The capacity is a parameter (R5). -/
theorem step_pbBytes {s t : State} (h : step s = .next t) : t.pbBytes = s.pbBytes := by
  rcases step_turn_cases h with ⟨-, ts, he⟩ | ⟨tr, rest, -, he⟩ | ⟨rest, -, rfl⟩ | ⟨rest, -, rfl⟩
  · exact (engineStep_pbBytes_lost he).1
  · exact (transact_pbBytes_lost he).1
  · exact waitPoll_pbBytes _
  · rfl

/-- Only a reset leaves bytes unspecified anew (R153). -/
theorem step_lost {s t : State} (h : step s = .next t) (hreset : s.turns.head? ≠ some .reset) : t.lost = s.lost := by
  rcases step_turn_cases h with ⟨-, ts, he⟩ | ⟨tr, rest, -, he⟩ | ⟨rest, -, rfl⟩ | ⟨rest, hts, -⟩
  · exact (engineStep_pbBytes_lost he).2
  · exact (transact_pbBytes_lost he).2
  · exact waitPoll_lost _
  · exact absurd (by rw [hts]; rfl) hreset

/-- An unwritten byte reads as a value of its address and of the resets that cut a pass (R152, R153). -/
theorem byteAt_unwritten {s : State} {a : Nat} (h : Memory.get? s.pb a = none) : s.byteAt a = s.unwritten a := by
  rw [State.byteAt, h, Option.getD_none]

/-- Settles O20: the value of an unwritten byte changes with the lost passes alone, and those with a reset alone. -/
theorem unwrittenByteIsStable : Obligations.UnwrittenByteIsStable := by
  intro s t a h hreset hs ht
  rw [byteAt_unwritten hs, byteAt_unwritten ht, State.unwritten, State.unwritten, step_lost h hreset]

/-- Settles O21: the engine's step is a sequence of pixel writes inside the image. -/
theorem engineStaysInsideTheImage : Obligations.EngineStaysInsideTheImage := by
  intro s t h a ha
  obtain ⟨u, hu, hpb, hlost, -⟩ := engineStep_writes h
  rw [byteAt_congr hpb (hlost.trans hu.lost.symm), hu.beyond ha]

/-! ### What ends a pass -/

/-- The engine changes `RUN` by the retire step alone (R58). -/
theorem engineStep_run {s t : State} (h : engineStep s = .next t) : t.run = s.run ∨ s.cur = .ended ∧ t = retire s := by
  rcases engineStep_cases h with ⟨-, rfl⟩ | ⟨-, hc, rfl⟩ | ⟨x, y, -, -, -, -, -, rfl⟩ | ⟨x, y, f, -, -, -, -, -, rfl⟩
  · exact .inl rfl
  · exact .inr ⟨hc, rfl⟩
  · exact .inl rfl
  · exact .inl (ditherPixel_run f x y s)

/-- Settles O23: of the turns of a busy machine the retire step and reset alone change `RUN`. -/
theorem onlyRetireOrResetEndsAPass : Obligations.OnlyRetireOrResetEndsAPass := by
  intro s t h hbusy hne
  rcases step_turn_cases h with ⟨hnext, ts, he⟩ | ⟨tr, rest, -, he⟩ | ⟨rest, -, rfl⟩ | ⟨rest, hts, rfl⟩
  · rcases engineStep_run he with e | ⟨hc, rfl⟩
    · exact absurd e hne
    · exact ⟨rfl, .inr ⟨hc, hnext, rfl, rfl⟩⟩
  · obtain ⟨⟨-, -, -, -, -, hrun, -⟩, -⟩ := transact_busy (by exact hbusy) he
    exact absurd hrun.symm hne
  · exact absurd (waitPoll_run _) hne
  · exact ⟨rfl, .inl (by rw [hts]; rfl)⟩

/-- Settles O24: the engine writes no register of the pass, and the host's writes are ignored while busy. -/
theorem passParametersAreConstant : Obligations.PassParametersAreConstant := by
  refine fun s t h => ⟨step_pbBytes h, fun hbusy hreset => ?_⟩
  rcases step_turn_cases h with ⟨-, ts, he⟩ | ⟨tr, rest, -, he⟩ | ⟨rest, -, rfl⟩ | ⟨rest, hts, -⟩
  · obtain ⟨_, -, -, -, hwidth, hheight, hfl, -⟩ := engineStep_writes he
    exact ⟨hwidth, hheight, hfl⟩
  · obtain ⟨⟨-, -, -, hwidth, hheight, -, -, hfl⟩, -⟩ := transact_busy (by exact hbusy) he
    exact ⟨hwidth.symm, hheight.symm, hfl.symm⟩
  · exact ⟨waitPoll_width _, waitPoll_height _, waitPoll_fl _⟩
  · exact absurd (by rw [hts]; rfl) hreset

end Sys2Proof.Machine
end

section
/-!
SUPPORT. The invariant: it holds at power-up, every turn keeps it, and it gives every turn a next state (R25, R11, R56).
-/

namespace Sys2Proof.Machine

/-! ### The invariant by parts -/

/-- The part of the invariant about the buffer memory: canonical, and inside the capacity. -/
def State.MemoryOk (s : State) : Prop := Memory.wf s.pb ∧ ∀ c ∈ s.pb, c.1 < s.pbBytes

theorem State.Inv.memoryOk {s : State} (hs : s.Inv) : s.MemoryOk := ⟨hs.memory_canonical, hs.memory_bounded⟩

/-- Of an idle machine the invariant asks its memory alone. -/
theorem inv_of_idle {s : State} (hr : s.run = .idle) (hm : s.MemoryOk) : s.Inv where
  memory_canonical := hm.1
  memory_bounded := hm.2
  image_fits hbusy := absurd hr hbusy
  cursor_in_domain := by simp only [State.cursorInDomain, hr]
  factor_positive hd := nomatch hr.symm.trans hd
  done_only_idle _ := hr

/-- A state at the same point of the same pass meets the invariant too, if it has not set `DONE`. -/
theorem inv_of_samePass {s t : State} (hs : s.Inv) (h : s.samePass t)
    (hdone : t.status.done = true → s.status.done = true) : t.Inv := by
  cases s
  cases t
  obtain ⟨rfl, rfl, rfl, rfl, rfl, rfl, rfl, rfl⟩ := h
  exact ⟨hs.memory_canonical, hs.memory_bounded, hs.image_fits, hs.cursor_in_domain, hs.factor_positive,
    fun hd => hs.done_only_idle (hdone hd)⟩

theorem withTurns_inv {s : State} (hs : s.Inv) (ts : List Turn) : (s.withTurns ts).Inv :=
  inv_of_samePass hs (samePass_refl s) id

theorem cursorInDomain_ended {s : State} (hc : s.cur = .ended) : s.cursorInDomain = true := by
  unfold State.cursorInDomain
  rw [hc]
  cases s.run <;> rfl

theorem cursorInDomain_gray {s : State} {x y : Nat} (hr : s.run = .gray) (hc : s.cur = .pos x y) :
    s.cursorInDomain = true ↔ x < s.w ∧ y < s.h := by
  simp only [State.cursorInDomain, hr, hc, inImage_nat]

theorem cursorInDomain_dither {s : State} {x y : Nat} (hr : s.run = .dither) (hc : s.cur = .pos x y) :
    s.cursorInDomain = inDomain s.w s.h x y := by
  simp only [State.cursorInDomain, hr, hc]

/-- A `GRAY` pass is inside its domain when its cursor, wherever it is not END, is in the image. -/
theorem cursorInDomain_of_gray {s : State} (hr : s.run = .gray) (h : ∀ x y, s.cur = .pos x y → x < s.w ∧ y < s.h) :
    s.cursorInDomain = true := by
  cases hc : s.cur with
  | ended => exact cursorInDomain_ended hc
  | pos x y => exact (cursorInDomain_gray hr hc).mpr (h x y hc)

/-- Likewise a `DITHER` pass. -/
theorem cursorInDomain_of_dither {s : State} (hr : s.run = .dither)
    (h : ∀ x y, s.cur = .pos x y → inDomain s.w s.h x y = true) : s.cursorInDomain = true := by
  cases hc : s.cur with
  | ended => exact cursorInDomain_ended hc
  | pos x y => exact (cursorInDomain_dither hr hc).trans (h x y hc)

/-! ### Host transactions -/

/-- A host transaction stores one byte of the memory, or none. -/
theorem transact_pb {tr : Transaction} {s t : State} (h : transact tr s = .next t) :
    t.pb = s.pb ∨ ∃ a v, a < s.pbBytes ∧ t.pb = Memory.set s.pb a v := by
  rcases transact_cases h with ⟨w, -, hc⟩ | ⟨w, -, rfl⟩ | ⟨w, -, rfl⟩ | ⟨w, -, rfl⟩ | ⟨o, w, -, -, rfl⟩ | ⟨o, -, rfl⟩ |
      ⟨a, v, -, rfl⟩ | ⟨a, -, rfl⟩
  · rcases writeCmd_refuses_or_accepts hc with ⟨f, rfl⟩ | ⟨r, c, f, rfl⟩ <;> exact .inl rfl
  · exact .inl rfl
  · exact .inl (writeWidth_pb w s)
  · exact .inl (writeHeight_pb w s)
  · exact .inl rfl
  · exact .inl rfl
  · by_cases hr : s.run = .idle
    · rw [bufWrite_idle hr]
      split
      · exact .inr ⟨a, v, ‹_›, rfl⟩
      · exact .inl rfl
    · rw [bufWrite_busy hr]
      exact .inl rfl
  · exact .inl (bufRead_pb a s)

theorem transact_memoryOk {tr : Transaction} {s t : State} (hs : s.MemoryOk) (h : transact tr s = .next t) :
    t.MemoryOk := by
  obtain ⟨hwf, hbound⟩ := hs
  have hbytes := (transact_pbBytes_lost h).1
  rcases transact_pb h with e | ⟨a, v, ha, e⟩
  · exact ⟨e ▸ hwf, fun c hc => hbytes ▸ hbound c (e ▸ hc)⟩
  · refine ⟨e ▸ wf_set hwf a v, fun c hc => ?_⟩
    rw [hbytes]
    rcases mem_set (e ▸ hc) with rfl | hc
    · exact ha
    · exact hbound c hc

/-- An accepted command starts inside its domain, with `DONE` cleared. -/
theorem exec_inv {i : Instr} {s t : State} (hs : s.Inv) (h : exec i s = .next t) : t.Inv := by
  rcases exec_cases h with ⟨-, rfl⟩ | ⟨-, -, rfl⟩ | ⟨-, -, rfl⟩ | ⟨-, -, hfit, rfl⟩ | ⟨f, -, -, hf, hfit, rfl⟩
  · exact inv_of_samePass hs (samePass_refl s) id
  · exact inv_of_samePass hs (samePass_refl s) fun hd => hd
  · exact inv_of_samePass hs (samePass_refl s) fun hd => hd
  · exact ⟨hs.memory_canonical, hs.memory_bounded, fun _ => hfit,
      cursorInDomain_of_gray rfl fun x y hc => firstGray_inImage hc, nofun, nofun⟩
  · exact ⟨hs.memory_canonical, hs.memory_bounded, fun _ => hfit,
      cursorInDomain_of_dither rfl fun x y hc => firstDither_inDomain hc, fun _ => hf, nofun⟩

/-- A transaction that leaves the machine idle keeps the memory, one that starts a pass is a command, and while busy the pass
stays where it is. -/
theorem transact_inv {tr : Transaction} {s t : State} (hs : s.Inv) (h : transact tr s = .next t) : t.Inv := by
  by_cases hbusy : s.run = .idle
  · by_cases hr : t.run = .idle
    · exact inv_of_idle hr (transact_memoryOk hs.memoryOk h)
    · obtain ⟨w, i, -, -, he⟩ := transact_start h hbusy hr
      exact exec_inv hs he
  · exact inv_of_samePass hs (transact_busy hbusy h).1 (transact_done h)

/-! ### The engine -/

/-- A visit writes inside the image, which fits the memory, so the invariant is left to the cursor. -/
theorem visit_inv {s u : State} {c : Cursor} (hs : s.Inv) (hbusy : s.run ≠ .idle) (hu : ImageWrites s u)
    (hc : State.cursorInDomain { u with cur := c } = true) : State.Inv { u with cur := c } := by
  have hrun : u.run = s.run := by rw [hu.frame]
  have hfl : u.fl = s.fl := by rw [hu.frame]
  have hstatus : u.status = s.status := by rw [hu.frame]
  have hbytes : u.pbBytes = s.pbBytes := by rw [hu.frame]
  have himage : u.imageBytes = s.imageBytes := by rw [hu.frame]; rfl
  have hfit := hs.image_fits hbusy
  refine ⟨hu.wf hs.memory_canonical, fun d hd => ?_, fun _ => ?_, hc, fun hd => ?_, fun hd => ?_⟩
  · rcases hu.mem hd with hd | hd
    · exact hbytes ▸ hs.memory_bounded d hd
    · exact hbytes ▸ Nat.lt_of_lt_of_le hd hfit
  · exact himage ▸ hbytes ▸ hfit
  · exact hfl ▸ hs.factor_positive (hrun ▸ hd)
  · exact hrun ▸ hs.done_only_idle (hstatus ▸ hd)

theorem engineStep_inv {s t : State} (hs : s.Inv) (h : engineStep s = .next t) : t.Inv := by
  rcases engineStep_cases h with ⟨-, rfl⟩ | ⟨-, -, rfl⟩ | ⟨x, y, hr, -, -, hx, hy, rfl⟩ | ⟨x, y, f, hr, -, -, hd, -, rfl⟩
  · exact hs
  · exact inv_of_idle rfl hs.memoryOk
  · refine visit_inv hs (by rw [hr]; decide) (grayPixel_imageWrites hx hy) ?_
    exact cursorInDomain_of_gray hr fun x' y' hc => nextGray_inImage hy hc hx
  · obtain ⟨hx, hy⟩ := inDomain_lt hd
    have hu := ditherPixel_imageWrites f hx hy
    refine visit_inv hs (by rw [hr]; decide) hu (cursorInDomain_of_dither ?_ fun x' y' hc => ?_)
    · exact (ditherPixel_run f x y s).trans hr
    · show inDomain (ditherPixel f x y s).w (ditherPixel f x y s).h x' y' = true
      rw [hu.w, hu.h]
      exact nextDither_inDomain hd hc

theorem engineStep_next {s : State} (hs : s.Inv) : ∃ t, engineStep s = .next t := by
  by_cases hr : s.run = .idle
  · exact ⟨_, engineStep_idle hr⟩
  have hfit := hs.image_fits hr
  have hcur := hs.cursor_in_domain
  rcases busy_cases hr with hc | ⟨x, y, hc, hg | hd⟩
  · exact ⟨_, engineStep_ended hr hc⟩
  · obtain ⟨hx, hy⟩ := (cursorInDomain_gray hg hc).mp hcur
    exact ⟨_, engineStep_gray hg hc hfit hx hy⟩
  · obtain ⟨f, hf, -⟩ := factorOf_some (hs.factor_positive hd)
    exact ⟨_, engineStep_dither hd hc hfit ((cursorInDomain_dither hd hc).symm.trans hcur) hf⟩

/-! ### The other turns -/

theorem samePass_waitPoll (s : State) : s.samePass (waitPoll s) :=
  ⟨(waitPoll_pb s).symm, (waitPoll_lost s).symm, (waitPoll_pbBytes s).symm, (waitPoll_width s).symm, (waitPoll_height s).symm,
    (waitPoll_run s).symm, (waitPoll_cur s).symm, (waitPoll_fl s).symm⟩

theorem waitPoll_inv {s : State} (hs : s.Inv) : (waitPoll s).Inv :=
  inv_of_samePass hs (samePass_waitPoll s) (by rw [waitPoll_status]; exact id)

/-- The bytes of the buffer after a reset (R151, R153). -/
theorem resetEvent_pb_idle {s : State} (hr : s.run = .idle) : (resetEvent s).pb = s.pb := if_pos hr

theorem resetEvent_pb_busy {s : State} (hr : s.run ≠ .idle) : (resetEvent s).pb = Memory.dropBelow s.pb s.imageBytes :=
  if_neg hr

theorem resetEvent_memoryOk {s : State} (hs : s.MemoryOk) : (resetEvent s).MemoryOk := by
  obtain ⟨hwf, hbound⟩ := hs
  by_cases hr : s.run = .idle
  · exact ⟨resetEvent_pb_idle hr ▸ hwf, fun c hc => hbound c (resetEvent_pb_idle hr ▸ hc)⟩
  · refine ⟨resetEvent_pb_busy hr ▸ wf_dropBelow hwf _, fun c hc => hbound c ?_⟩
    rw [resetEvent_pb_busy hr] at hc
    exact List.mem_of_mem_filter hc

/-! ### The obligations -/

theorem step_inv {s t : State} (hs : s.Inv) (h : step s = .next t) : t.Inv := by
  rcases step_turn_cases h with ⟨-, ts, he⟩ | ⟨tr, rest, -, he⟩ | ⟨rest, -, rfl⟩ | ⟨rest, -, rfl⟩
  · exact engineStep_inv (withTurns_inv hs ts) he
  · exact transact_inv (withTurns_inv hs rest) he
  · exact waitPoll_inv (withTurns_inv hs rest)
  · exact inv_of_idle rfl (resetEvent_memoryOk (withTurns_inv hs rest).memoryOk)

/-- Settles O27, by the turn: the engine's visits, the host's transactions, the poll and reset each keep the invariant. -/
theorem invariantKeptByEveryStep : Obligations.InvariantKeptByEveryStep := fun _ _ hs h => step_inv hs h

theorem powerUp_inv (capacity : Nat) : (State.powerUp capacity).Inv :=
  inv_of_idle rfl ⟨List.Pairwise.nil, fun _ hc => nomatch hc⟩

/-- Settles O28: no byte is listed and the machine is idle. -/
theorem invariantHoldsAtReset : Obligations.InvariantHoldsAtReset := ⟨powerUp_inv, powerUp_inv _⟩

/-- Settles O26: the invariant excludes the faults of the engine's visits, and no other turn has one. -/
theorem machineIsNeverStuck : Obligations.MachineIsNeverStuck := by
  intro s hs
  by_cases hts : s.turns = []
  · rw [step_nil hts]
    exact engineStep_next hs
  · obtain ⟨u, rest, hts⟩ := List.exists_cons_of_ne_nil hts
    rw [step_cons hts]
    cases u with
    | host tr => exact transact_next tr _
    | engine => exact engineStep_next (withTurns_inv hs rest)
    | wait => exact ⟨_, rfl⟩
    | reset => exact ⟨_, rfl⟩

end Sys2Proof.Machine
end

section
/-!
SUPPORT. The cursors of the two passes as the positions of their domains by number (R72, R94).
-/

namespace Sys2Proof.Machine

/-! ### The cursor by the number of visits made -/

/-- The cursor of a `GRAY` pass after `k` visits. -/
def grayCursor (w h k : Nat) : Cursor := if k < w * h then .pos (k % w) (k / w) else .ended

/-- The cursor of a `DITHER` pass after `k` visits. -/
def ditherCursor (w h k : Nat) : Cursor :=
  if k < (w - 2) * (h - 1) then .pos (1 + k % (w - 2)) (k / (w - 2)) else .ended

theorem grayCursor_zero (w h : Nat) : grayCursor w h 0 = firstGray w h := (firstGray_index w h).symm

theorem grayCursor_of_lt {w h k : Nat} (hk : k < w * h) : grayCursor w h k = .pos (k % w) (k / w) := if_pos hk

theorem grayCursor_of_le {w h k : Nat} (hk : w * h ≤ k) : grayCursor w h k = .ended := if_neg (Nat.not_lt.mpr hk)

theorem grayCursor_succ {w h k : Nat} (hk : k < w * h) : grayCursor w h (k + 1) = nextGray w h (k % w) (k / w) :=
  (nextGray_index hk).symm

theorem ditherCursor_zero (w h : Nat) : ditherCursor w h 0 = firstDither w h := by
  rw [firstDither_eq, firstGray_index, ditherCursor]
  split_ifs <;> rfl

theorem ditherCursor_of_lt {w h k : Nat} (hk : k < (w - 2) * (h - 1)) :
    ditherCursor w h k = .pos (1 + k % (w - 2)) (k / (w - 2)) := if_pos hk

theorem ditherCursor_of_le {w h k : Nat} (hk : (w - 2) * (h - 1) ≤ k) : ditherCursor w h k = .ended :=
  if_neg (Nat.not_lt.mpr hk)

theorem ditherCursor_succ {w h k : Nat} (hk : k < (w - 2) * (h - 1)) :
    ditherCursor w h (k + 1) = nextDither w h (1 + k % (w - 2)) (k / (w - 2)) := (nextDither_index hk).symm

/-! ### The obligations -/

/-- Settles O31, by induction on the number of visits. -/
theorem grayCursorIsRasterOrder : Obligations.GrayCursorIsRasterOrder := by
  intro w h k
  change _ = grayCursor w h k
  induction k with
  | zero => exact (grayCursor_zero w h).symm
  | succ k ih =>
    rw [Function.iterate_succ_apply', ih]
    by_cases hk : k < w * h
    · rw [grayCursor_of_lt hk, grayCursor_succ hk]
    · rw [grayCursor_of_le (Nat.not_lt.mp hk), grayCursor_of_le (by omega)]

/-- The positions of the processing domain are those that `k` numbers (R91). -/
theorem inDomain_iff_exists_index {w h x y : Nat} :
    inDomain w h x y = true ↔ ∃ k, k < (w - 2) * (h - 1) ∧ x = 1 + k % (w - 2) ∧ y = k / (w - 2) := by
  constructor
  · intro hd
    obtain ⟨hx, hxw, hyh⟩ := inDomain_iff.mp hd
    have hcol : x - 1 < w - 2 := by omega
    refine ⟨y * (w - 2) + (x - 1), position_lt hcol (by omega), ?_, ?_⟩
    · rw [Nat.mul_add_mod', Nat.mod_eq_of_lt hcol]
      omega
    · rw [Nat.mul_comm, Nat.mul_add_div (by omega), Nat.div_eq_of_lt hcol, Nat.add_zero]
  · rintro ⟨k, hk, rfl, rfl⟩
    exact inDomain_index hk

/-- Settles O45, by induction on the number of visits; the positions are numbered row by row. -/
theorem ditherCursorIsTheDomain : Obligations.DitherCursorIsTheDomain := by
  refine ⟨fun w h k => ?_, fun w h x y => ?_⟩
  · change _ = ditherCursor w h k
    induction k with
    | zero => exact (ditherCursor_zero w h).symm
    | succ k ih =>
      rw [Function.iterate_succ_apply', ih]
      by_cases hk : k < (w - 2) * (h - 1)
      · rw [ditherCursor_of_lt hk, ditherCursor_succ hk]
      · rw [ditherCursor_of_le (Nat.not_lt.mp hk), ditherCursor_of_le (by omega)]
  · rw [← inDomain_iff_exists_index, inDomain_iff]
    omega

end Sys2Proof.Machine
end

section
/-!
SUPPORT. A pass as the engine runs it: the state after each of its visits, its retire step, and that what it leaves is the
big-step meaning (R57, R58, R62, R70, R90).
-/

namespace Sys2Proof.Machine

/-! ### Runs -/

/-- Steps that follow one another are a run. -/
theorem runFor_of_steps {A : Nat → State} {n : Nat} (h : ∀ k, k < n → step (A k) = .next (A (k + 1))) :
    ∀ k, k ≤ n → (A 0).runFor k = .next (A k)
  | 0, _ => rfl
  | k + 1, hk => by rw [runFor_add (runFor_of_steps h k (by omega)), runFor_one (h k hk)]

/-- The retire step after the last visit (R58). -/
theorem step_retire {s : State} (hr : s.run ≠ .idle) (hc : s.cur = .ended) (hturns : s.turns = []) :
    step s = .next (retire s) := by
  rw [step_nil hturns, engineStep_ended hr hc]

/-! ### Passes on the same buffer -/

theorem SameBuffer.foldl {ι : Type} {g : State → ι → State}
    (hg : ∀ {t u : State} (i : ι), SameBuffer t u → SameBuffer (g t i) (g u i)) (l : List ι) {s t : State}
    (h : SameBuffer s t) : SameBuffer (l.foldl g s) (l.foldl g t) := by
  induction l generalizing s t with
  | nil => exact h
  | cons i l ih => exact ih (hg i h)

theorem SameBuffer.grayPass {s t : State} (h : SameBuffer s t) : SameBuffer (grayPass s) (grayPass t) := by
  unfold Machine.grayPass
  rw [h.w, h.h]
  exact .foldl (fun y hy => .foldl (fun x hx => hx.grayPixel x y) _ hy) _ h

theorem SameBuffer.ditherPass {s t : State} (h : SameBuffer s t) (f : Factor) :
    SameBuffer (ditherPass f s) (ditherPass f t) := by
  unfold Machine.ditherPass
  rw [h.w, h.h]
  exact .foldl (fun y hy => .foldl (fun i hi => hi.ditherPixel f (i + 1) y) _ hy) _ h

/-- A dither visit of a state with the same buffer stores the same bytes. -/
theorem ditherPixel_of_sameBuffer {s t : State} (h : SameBuffer t s) (f : Factor) (x y : Nat) :
    ditherPixel f x y t = { t with pb := (ditherPixel f x y s).pb } := by
  rw [ditherPixel_frame f x y t, (h.ditherPixel f x y).1]

/-! ### The `GRAY` pass -/

/-- The first `k` visits of a gray pass. -/
def grayVisits (s : State) (k : Nat) : State := (List.range k).foldl (fun t i => grayPixel (i % s.w) (i / s.w) t) s

theorem grayVisits_succ (s : State) (k : Nat) :
    grayVisits s (k + 1) = grayPixel (k % s.w) (k / s.w) (grayVisits s k) := by
  simp only [grayVisits, List.range_succ, List.foldl_append, List.foldl_cons, List.foldl_nil]

theorem grayVisits_all (s : State) : grayVisits s (s.w * s.h) = grayPass s := (grayPass_raster s).symm

theorem grayVisits_imageWrites {s : State} {k : Nat} (hk : k ≤ s.w * s.h) : ImageWrites s (grayVisits s k) :=
  foldl_grayPixel_imageWrites s k hk

/-- The machine after `k` visits of a gray pass. -/
def grayAfter (s : State) (k : Nat) : State := { grayVisits s k with cur := grayCursor s.w s.h k }

theorem grayAfter_frame {s : State} {k : Nat} (hk : k ≤ s.w * s.h) :
    grayAfter s k = { s with pb := (grayVisits s k).pb, cur := grayCursor s.w s.h k } := by
  rw [grayAfter, (grayVisits_imageWrites hk).frame]

theorem grayAfter_zero {s : State} (hc : s.cur = firstGray s.w s.h) : grayAfter s 0 = s := by
  rw [grayAfter, grayCursor_zero, ← hc]
  rfl

/-- Each engine step of the pass is its next visit (R57). -/
theorem step_grayAfter {s : State} (hr : s.run = .gray) (hturns : s.turns = []) (hfit : s.imageBytes ≤ s.pbBytes) {k : Nat}
    (hk : k < s.w * s.h) : step (grayAfter s k) = .next (grayAfter s (k + 1)) := by
  have hw := pos_of_lt_mul hk
  rw [grayAfter_frame hk.le, step_nil (by exact hturns),
    engineStep_gray (by exact hr) (by exact grayCursor_of_lt hk) (by exact hfit) (by exact Nat.mod_lt _ hw)
      (by exact Nat.div_lt_of_lt_mul hk)]
  congr 1
  rw [grayAfter, grayVisits_succ, grayCursor_succ hk, (grayVisits_imageWrites hk.le).frame]
  rfl

theorem runFor_gray {s : State} (hr : s.run = .gray) (hturns : s.turns = []) (hfit : s.imageBytes ≤ s.pbBytes)
    (hc : s.cur = firstGray s.w s.h) {k : Nat} (hk : k ≤ s.w * s.h) : s.runFor k = .next (grayAfter s k) := by
  have hrun := runFor_of_steps (A := grayAfter s) (fun j hj => step_grayAfter hr hturns hfit hj) k hk
  rwa [grayAfter_zero hc] at hrun

/-- The whole pass and its retire step leave the big-step meaning (R58, R70). -/
theorem runFor_gray_retire {s : State} (hr : s.run = .gray) (hturns : s.turns = []) (hfit : s.imageBytes ≤ s.pbBytes)
    (hc : s.cur = firstGray s.w s.h) :
    s.runFor (s.w * s.h + 1) = .next (retire { s with pb := (grayPass s).pb, cur := .ended }) := by
  rw [runFor_add (runFor_gray hr hturns hfit hc le_rfl), grayAfter_frame le_rfl, grayCursor_of_le le_rfl, grayVisits_all]
  exact runFor_one (step_retire (fun hi => nomatch hr.symm.trans hi) rfl hturns)

/-- Settles O32: the accepted command starts the pass at its first position with the buffer as it is. -/
theorem grayRunsItsBigStep : Obligations.GrayRunsItsBigStep := by
  intro s hr hturns hfit
  refine ⟨_, exec_gray_accepts hr hfit, ?_⟩
  have hsame : SameBuffer (accept .gray (firstGray s.w s.h) s.fl s) s := ⟨rfl, rfl, rfl, rfl⟩
  refine (runFor_gray_retire (s := accept .gray (firstGray s.w s.h) s.fl s) rfl hturns hfit rfl).trans ?_
  rw [hsame.grayPass.1, grayPass_frame s]
  rfl

/-! ### The `DITHER` pass -/

/-- The first `k` visits of a dither pass. -/
def ditherVisits (f : Factor) (s : State) (k : Nat) : State :=
  (List.range k).foldl (fun t i => ditherPixel f (1 + i % (s.w - 2)) (i / (s.w - 2)) t) s

theorem ditherVisits_succ (f : Factor) (s : State) (k : Nat) :
    ditherVisits f s (k + 1) = ditherPixel f (1 + k % (s.w - 2)) (k / (s.w - 2)) (ditherVisits f s k) := by
  simp only [ditherVisits, List.range_succ, List.foldl_append, List.foldl_cons, List.foldl_nil]

theorem ditherVisits_all (f : Factor) (s : State) : ditherVisits f s ((s.w - 2) * (s.h - 1)) = ditherPass f s :=
  (ditherPass_raster f s).symm

theorem ditherVisits_imageWrites {f : Factor} {s : State} {k : Nat} (hk : k ≤ (s.w - 2) * (s.h - 1)) :
    ImageWrites s (ditherVisits f s k) := foldl_ditherPixel_imageWrites f s k hk

/-- The machine after `k` visits of a dither pass. -/
def ditherAfter (f : Factor) (s : State) (k : Nat) : State := { ditherVisits f s k with cur := ditherCursor s.w s.h k }

theorem ditherAfter_frame {f : Factor} {s : State} {k : Nat} (hk : k ≤ (s.w - 2) * (s.h - 1)) :
    ditherAfter f s k = { s with pb := (ditherVisits f s k).pb, cur := ditherCursor s.w s.h k } := by
  rw [ditherAfter, (ditherVisits_imageWrites hk).frame]

theorem ditherAfter_zero {f : Factor} {s : State} (hc : s.cur = firstDither s.w s.h) : ditherAfter f s 0 = s := by
  rw [ditherAfter, ditherCursor_zero, ← hc]
  rfl

/-- Each engine step of the pass is its next visit (R57). -/
theorem step_ditherAfter {f : Factor} {s : State} (hr : s.run = .dither) (hturns : s.turns = [])
    (hfit : s.imageBytes ≤ s.pbBytes) (hf : factorOf s.fl = some f) {k : Nat} (hk : k < (s.w - 2) * (s.h - 1)) :
    step (ditherAfter f s k) = .next (ditherAfter f s (k + 1)) := by
  have hsame : SameBuffer { s with pb := (ditherVisits f s k).pb, cur := ditherCursor s.w s.h k } (ditherVisits f s k) := by
    rw [(ditherVisits_imageWrites hk.le).frame]
    exact ⟨rfl, rfl, rfl, rfl⟩
  rw [ditherAfter_frame hk.le, step_nil (by exact hturns),
    engineStep_dither (by exact hr) (ditherCursor_of_lt hk) (by exact hfit) (by exact inDomain_index hk) (by exact hf),
    ditherPixel_of_sameBuffer hsame, ← ditherVisits_succ, ditherAfter_frame hk, ditherCursor_succ hk]
  rfl

theorem runFor_dither {f : Factor} {s : State} (hr : s.run = .dither) (hturns : s.turns = [])
    (hfit : s.imageBytes ≤ s.pbBytes) (hf : factorOf s.fl = some f) (hc : s.cur = firstDither s.w s.h) {k : Nat}
    (hk : k ≤ (s.w - 2) * (s.h - 1)) : s.runFor k = .next (ditherAfter f s k) := by
  have hrun := runFor_of_steps (A := ditherAfter f s) (fun j hj => step_ditherAfter hr hturns hfit hf hj) k hk
  rwa [ditherAfter_zero hc] at hrun

/-- The whole pass and its retire step leave the big-step meaning (R58, R90). -/
theorem runFor_dither_retire {f : Factor} {s : State} (hr : s.run = .dither) (hturns : s.turns = [])
    (hfit : s.imageBytes ≤ s.pbBytes) (hf : factorOf s.fl = some f) (hc : s.cur = firstDither s.w s.h) :
    s.runFor ((s.w - 2) * (s.h - 1) + 1) = .next (retire { s with pb := (ditherPass f s).pb, cur := .ended }) := by
  rw [runFor_add (runFor_dither hr hturns hfit hf hc le_rfl), ditherAfter_frame le_rfl, ditherCursor_of_le le_rfl,
    ditherVisits_all]
  exact runFor_one (step_retire (fun hi => nomatch hr.symm.trans hi) rfl hturns)

/-- The latch holds the factor of its number (R15, R82). -/
theorem factorOf_eq {fl : Half} {f : Factor} (h : f.val = fl.toNat) : factorOf fl = some f := by
  obtain ⟨n, hn⟩ := f
  cases h
  exact dif_pos hn

/-- Settles O46: the accepted command starts the pass at its first position with the buffer as it is and the factor latched. -/
theorem ditherRunsItsBigStep : Obligations.DitherRunsItsBigStep := by
  intro s f F hr hturns hF hfit
  have hf : f ≠ 0 := by
    rintro rfl
    exact absurd hF F.pos.ne'
  refine ⟨_, exec_dither_accepts hr hf hfit, ?_⟩
  have hsame : SameBuffer (accept .dither (firstDither s.w s.h) f s) s := ⟨rfl, rfl, rfl, rfl⟩
  refine (runFor_dither_retire (s := accept .dither (firstDither s.w s.h) f s) rfl hturns hfit (factorOf_eq hF) rfl).trans ?_
  rw [(hsame.ditherPass F).1, ditherPass_frame F s]
  rfl

end Sys2Proof.Machine
end

section
/-!
SUPPORT. How many engine steps a pass takes, and what may come between them: the host's transactions and the polls of a `WAIT`
(R58, R61, R92, R136).
-/

namespace Sys2Proof.Machine

/-! ### The number of engine steps of a pass -/

theorem exec_gray_accepted {s t : State} (h : exec .gray s = .next t) (hne : t.run ≠ s.run) :
    s.imageBytes ≤ s.pbBytes ∧ t = accept .gray (firstGray s.w s.h) s.fl s := by
  rcases exec_cases h with ⟨-, rfl⟩ | ⟨-, hi, -⟩ | ⟨-, -, rfl⟩ | ⟨-, -, hfit, e⟩ | ⟨f, -, hi, -⟩
  · exact absurd rfl hne
  · cases hi
  · exact absurd rfl hne
  · exact ⟨hfit, e⟩
  · cases hi

theorem exec_dither_accepted {f : Half} {s t : State} (h : exec (.dither f) s = .next t) (hne : t.run ≠ s.run) :
    f ≠ 0 ∧ s.imageBytes ≤ s.pbBytes ∧ t = accept .dither (firstDither s.w s.h) f s := by
  rcases exec_cases h with ⟨-, rfl⟩ | ⟨-, -, rfl⟩ | ⟨-, -, rfl⟩ | ⟨-, hi, -⟩ | ⟨g, -, hi, hg, hfit, e⟩
  · exact absurd rfl hne
  · exact absurd rfl hne
  · exact absurd rfl hne
  · cases hi
  · cases hi
    exact ⟨hg, hfit, e⟩

/-- The first position of an empty image is END (R72). -/
theorem firstGray_empty {w h : Nat} (he : w = 0 ∨ h = 0) : firstGray w h = .ended := if_neg (by omega)

/-- A dimension register that holds 0 is the dimension 0 (R12). -/
theorem dimensions_zero {s : State} (h : s.width = 0 ∨ s.height = 0) : s.w = 0 ∨ s.h = 0 :=
  h.imp (congrArg BitVec.toNat) (congrArg BitVec.toNat)

/-- An accepted `GRAY` is busy after each of its `W*H` visits and idle after one step more (R58). -/
theorem gray_steps {s t : State} (hr : s.run = .idle) (hturns : s.turns = []) (h : exec .gray s = .next t)
    (ht : t.run = .gray) :
    (∀ k, k ≤ s.w * s.h → ∃ u, t.runFor k = .next u ∧ u.run = .gray) ∧
      ∃ u, t.runFor (s.w * s.h + 1) = .next u ∧ u.run = .idle := by
  obtain ⟨hfit, rfl⟩ := exec_gray_accepted h (by rw [ht, hr]; decide)
  refine ⟨fun k hk => ⟨_, runFor_gray ht hturns hfit rfl hk, ?_⟩, _, runFor_gray_retire ht hturns hfit rfl, rfl⟩
  rw [grayAfter_frame (by exact hk)]
  rfl

/-- Likewise an accepted `DITHER`, after each visit of its domain (R58). -/
theorem dither_steps {f : Half} {s t : State} (hr : s.run = .idle) (hturns : s.turns = [])
    (h : exec (.dither f) s = .next t) (ht : t.run = .dither) :
    (∀ k, k ≤ (s.w - 2) * (s.h - 1) → ∃ u, t.runFor k = .next u ∧ u.run = .dither) ∧
      ∃ u, t.runFor ((s.w - 2) * (s.h - 1) + 1) = .next u ∧ u.run = .idle := by
  obtain ⟨hf, hfit, rfl⟩ := exec_dither_accepted h (by rw [ht, hr]; decide)
  obtain ⟨F, hF, -⟩ := factorOf_some hf
  refine ⟨fun k hk => ⟨_, runFor_dither ht hturns hfit hF rfl hk, ?_⟩, _, runFor_dither_retire ht hturns hfit hF rfl, rfl⟩
  rw [ditherAfter_frame (by exact hk)]
  rfl

/-- Settles O22: the retire step is the engine's at END, where an empty domain starts and every other pass arrives. -/
theorem retireAndStepCounts : Obligations.RetireAndStepCounts := by
  refine ⟨fun s hr hc hturns => step_retire hr hc hturns, fun s t h hne he => ?_, fun s t f h hne he => ?_,
    fun s t hr hturns h ht => gray_steps hr hturns h ht, fun s t f hr hturns _ h ht => dither_steps hr hturns h ht⟩
  · obtain ⟨-, rfl⟩ := exec_gray_accepted h hne
    exact firstGray_empty (dimensions_zero he)
  · obtain ⟨-, -, rfl⟩ := exec_dither_accepted h hne
    exact firstDither_empty he

/-! ### The engine steps that are left -/

theorem stepsLeft_idle {s : State} (hr : s.run = .idle) : s.stepsLeft = 0 := by simp only [State.stepsLeft, hr]

theorem stepsLeft_ended {s : State} (hr : s.run ≠ .idle) (hc : s.cur = .ended) : s.stepsLeft = 1 := by
  unfold State.stepsLeft
  rw [hc]
  cases h : s.run with
  | idle => exact absurd h hr
  | gray => rfl
  | dither => rfl

theorem stepsLeft_gray {s : State} {x y : Nat} (hr : s.run = .gray) (hc : s.cur = .pos x y) :
    s.stepsLeft = s.w * s.h - (y * s.w + x) + 1 := by simp only [State.stepsLeft, hr, hc]

theorem stepsLeft_dither {s : State} {x y : Nat} (hr : s.run = .dither) (hc : s.cur = .pos x y) :
    s.stepsLeft = (s.w - 2) * (s.h - 1) - (y * (s.w - 2) + (x - 1)) + 1 := by simp only [State.stepsLeft, hr, hc]

/-- A busy machine has a step left, the retire step at the least (R58). -/
theorem stepsLeft_pos_iff {s : State} : 0 < s.stepsLeft ↔ s.run ≠ .idle := by
  refine ⟨fun h hr => absurd (stepsLeft_idle hr) h.ne', fun hr => ?_⟩
  rcases busy_cases hr with hc | ⟨x, y, hc, hg | hd⟩
  · rw [stepsLeft_ended hr hc]
    exact Nat.one_pos
  · rw [stepsLeft_gray hg hc]
    exact Nat.succ_pos _
  · rw [stepsLeft_dither hd hc]
    exact Nat.succ_pos _

theorem stepsLeft_samePass {s t : State} (h : s.samePass t) : s.stepsLeft = t.stepsLeft := by
  cases s
  cases t
  obtain ⟨rfl, rfl, rfl, rfl, rfl, rfl, rfl, rfl⟩ := h
  rfl

/-- How many of the `w * h` positions are left from a cursor on, and one step more. -/
def positionsLeft (w h : Nat) : Cursor → Nat
  | .pos x y => w * h - (y * w + x) + 1
  | .ended => 1

/-- A move of the cursor in raster order leaves one position less (R72). -/
theorem positionsLeft_nextGray {w h x y : Nat} (hx : x < w) (hy : y < h) :
    positionsLeft w h (nextGray w h x y) + 1 = w * h - (y * w + x) + 1 := by
  have hlt := position_lt hx hy
  unfold nextGray
  split_ifs with hcol hrow
  · have := position_lt hcol hy
    simp only [positionsLeft]
    omega
  · have := position_lt (Nat.zero_lt_of_lt hx) hrow
    simp only [positionsLeft, Nat.add_mul] at this ⊢
    omega
  · obtain rfl : h = y + 1 := by omega
    simp only [positionsLeft, Nat.mul_add, Nat.mul_comm w y] at hlt ⊢
    omega

/-- After its visit a gray pass has the positions of the moved cursor left. -/
theorem stepsLeft_grayCursor {s : State} (hr : s.run = .gray) : s.stepsLeft = positionsLeft s.w s.h s.cur := by
  have hbusy : s.run ≠ .idle := by rw [hr]; decide
  cases hc : s.cur with
  | ended => rw [stepsLeft_ended hbusy hc, positionsLeft]
  | pos x y => rw [stepsLeft_gray hr hc, positionsLeft]

/-- A move of the cursor in the domain leaves one position less (R94). -/
theorem stepsLeft_nextDither {s : State} {x y : Nat} (hr : s.run = .dither) (hd : inDomain s.w s.h x y = true)
    (hc : s.cur = nextDither s.w s.h x y) :
    s.stepsLeft + 1 = (s.w - 2) * (s.h - 1) - (y * (s.w - 2) + (x - 1)) + 1 := by
  obtain ⟨hx, hxw, hyh⟩ := inDomain_iff.mp hd
  have hbusy : s.run ≠ .idle := by rw [hr]; decide
  rw [← positionsLeft_nextGray (show x - 1 < s.w - 2 by omega) (show y < s.h - 1 by omega)]
  rw [nextDither_eq hx] at hc
  cases hn : nextGray (s.w - 2) (s.h - 1) (x - 1) y with
  | ended => rw [stepsLeft_ended hbusy (by rw [hc, hn]), positionsLeft]
  | pos x' y' => rw [stepsLeft_dither hr (by rw [hc, hn]), positionsLeft, Nat.add_sub_cancel_left]

/-- Each engine step of a busy machine is one of those left. -/
theorem engineStep_stepsLeft {s t : State} (h : engineStep s = .next t) (hbusy : s.run ≠ .idle) :
    t.stepsLeft + 1 = s.stepsLeft := by
  rcases engineStep_cases h with ⟨hr, -⟩ | ⟨-, hc, rfl⟩ | ⟨x, y, hr, hc, -, hx, hy, rfl⟩ | ⟨x, y, f, hr, hc, -, hd, -, rfl⟩
  · exact absurd hr hbusy
  · rw [stepsLeft_ended hbusy hc, stepsLeft_idle (retire_run s)]
  · rw [stepsLeft_gray hr hc, stepsLeft_grayCursor (by exact hr)]
    exact positionsLeft_nextGray hx hy
  · rw [stepsLeft_dither hr hc, ditherPixel_frame f x y s]
    exact stepsLeft_nextDither (s := { s with pb := (ditherPixel f x y s).pb, cur := nextDither s.w s.h x y }) hr hd rfl

/-! ### Host transactions between the engine's steps -/

theorem State.samePass.sameBuffer {s t : State} (h : s.samePass t) : SameBuffer s t := by
  obtain ⟨hpb, hlost, -, hwidth, hheight, -⟩ := h
  exact ⟨hpb, hlost, hwidth, hheight⟩

/-- The engine's step depends on the pass alone (R57). -/
theorem engineStep_samePass {s t s' : State} (h : s.samePass t) (hs : engineStep s = .next s') :
    ∃ t', engineStep t = .next t' ∧ s'.samePass t' ∧ t'.turns = t.turns := by
  have hb := h.sameBuffer
  obtain ⟨hpb, hlost, hbytes, hwidth, hheight, hrun, hcur, hfl⟩ := h
  rcases engineStep_cases hs with ⟨hr, rfl⟩ | ⟨hr, hc, rfl⟩ | ⟨x, y, hr, hc, hfit, hx, hy, rfl⟩ |
      ⟨x, y, f, hr, hc, hfit, hd, hf, rfl⟩
  · exact ⟨t, engineStep_idle (hrun ▸ hr), ⟨hpb, hlost, hbytes, hwidth, hheight, hrun, hcur, hfl⟩, rfl⟩
  · exact ⟨_, engineStep_ended (hrun ▸ hr) (hcur ▸ hc), ⟨hpb, hlost, hbytes, hwidth, hheight, rfl, hcur, hfl⟩, rfl⟩
  · rw [hb.imageBytes, hbytes] at hfit
    rw [hb.w] at hx
    rw [hb.h] at hy
    refine ⟨_, engineStep_gray (hrun ▸ hr) (hcur ▸ hc) hfit hx hy, ?_, rfl⟩
    exact ⟨(hb.grayPixel x y).1, hlost, hbytes, hwidth, hheight, hrun, by rw [hb.w, hb.h], hfl⟩
  · rw [hb.imageBytes, hbytes] at hfit
    rw [hb.w, hb.h] at hd
    rw [hfl] at hf
    refine ⟨_, engineStep_dither (hrun ▸ hr) (hcur ▸ hc) hfit hd hf, ?_, ditherPixel_turns f x y t⟩
    rw [ditherPixel_frame f x y s, ditherPixel_frame f x y t]
    exact ⟨(hb.ditherPixel f x y).1, hlost, hbytes, hwidth, hheight, hrun, by rw [hb.w, hb.h], hfl⟩

/-- One turn of a pass among the host's turns, beside the pass alone, which takes a step with the engine's turn only. -/
theorem step_interleaved {turn : Turn} (ts : List Turn) {s alone : State} (hs : s.Inv) (hbusy : s.run ≠ .idle)
    (hsame : alone.samePass s) (halone : alone.turns = []) (hturn : turn.hostOrEngine = true) :
    ∃ s' alone', step (s.withTurns (turn :: ts)) = .next s' ∧ alone.runFor ([turn].count .engine) = .next alone' ∧
      s'.Inv ∧ alone'.samePass s' ∧ s'.turns = ts ∧ alone'.turns = [] ∧
      s'.stepsLeft + [turn].count .engine = s.stepsLeft := by
  cases turn with
  | host tr =>
    have hcount : [Turn.host tr].count .engine = 0 := by simp
    obtain ⟨s', hstep, hsame', hturns⟩ := step_transact_busy (s := s.withTurns (.host tr :: ts)) hbusy rfl
    rw [hcount]
    exact ⟨s', alone, hstep, rfl, step_inv (withTurns_inv hs _) hstep, samePass_trans hsame hsame', hturns, halone,
      (stepsLeft_samePass (s := s) hsame').symm⟩
  | engine =>
    obtain ⟨s', hstep⟩ := engineStep_next (withTurns_inv hs ts)
    obtain ⟨alone', hstep', hsame', halone'⟩ := engineStep_samePass (s := s.withTurns ts) (samePass_symm hsame) hstep
    obtain ⟨_, -, -, -, -, -, -, -, hturns, -⟩ := engineStep_writes hstep
    exact ⟨s', alone', (step_cons (t := .engine) rfl).trans hstep, runFor_one ((step_nil halone).trans hstep'),
      engineStep_inv (withTurns_inv hs ts) hstep, samePass_symm hsame', hturns, halone'.trans halone,
      (engineStep_stepsLeft hstep hbusy).trans (stepsLeft_samePass (samePass_refl s))⟩
  | wait => cases hturn
  | reset => cases hturn

/-- Whatever the host does between them, the engine's steps bring the pass where they bring it alone. -/
theorem interleaved_samePass (ts : List Turn) {s alone : State} (hs : s.Inv) (hsame : alone.samePass s)
    (halone : alone.turns = []) (hts : ∀ t ∈ ts, t.hostOrEngine = true) (hleft : ts.count .engine < s.stepsLeft) :
    ∃ t u, (s.withTurns ts).runFor ts.length = .next t ∧ alone.runFor (ts.count .engine) = .next u ∧ u.samePass t := by
  induction ts generalizing s alone with
  | nil => exact ⟨_, _, rfl, rfl, hsame⟩
  | cons turn ts ih =>
    have hcount : (turn :: ts).count .engine = [turn].count .engine + ts.count .engine :=
      List.count_append (l₁ := [turn]) (l₂ := ts)
    obtain ⟨hturn, hrest⟩ := List.forall_mem_cons.mp hts
    obtain ⟨s', alone', hstep, hrun, hinv, hsame', rfl, halone', hleft'⟩ :=
      step_interleaved ts hs (stepsLeft_pos_iff.mp (by omega)) hsame halone hturn
    obtain ⟨t, u, ht, hu, htu⟩ := ih hinv hsame' halone' hrest (by omega)
    exact ⟨t, u, (runFor_succ_next hstep _).trans ht, by rw [hcount, runFor_add hrun, hu], htu⟩

/-- Settles O25, by induction on the turns: a transaction leaves the pass of a busy machine where it is, and the engine's step
depends on the pass alone. -/
theorem interleavingDoesNotChangeThePass : Obligations.InterleavingDoesNotChangeThePass := fun s ts hs hts hleft =>
  interleaved_samePass ts hs (samePass_refl s) rfl hts hleft

/-! ### The polls of a `WAIT` -/

/-- A poll of an idle machine is the last one, and it reads `BUSY = 0` (R61). -/
theorem step_wait_idle {s : State} {rest : List Turn} (hr : s.run = .idle) (h : s.turns = .wait :: rest) :
    step s = .next { s with turns := rest, hostData := some (statusWord s) } := by
  rw [step_cons h]
  exact congrArg Host.Outcome.next (waitPoll_idle (s := s.withTurns rest) hr)

theorem statusWord_idle {s : State} (hr : s.run = .idle) : (statusWord s).getLsbD 0 = false := by
  rw [(statusWord_getLsbD s).1, Bool.eq_false_iff]
  exact fun hb => busy_eq_true_iff.mp hb hr

/-- A poll of a busy machine is followed by an engine step and the next poll (log 10). -/
theorem runFor_wait_busy {s : State} {rest : List Turn} (hs : s.Inv) (hr : s.run ≠ .idle) (h : s.turns = .wait :: rest) :
    ∃ t, s.runFor 2 = .next t ∧ t.Inv ∧ t.turns = .wait :: rest ∧ t.stepsLeft + 1 = s.stepsLeft := by
  have hpoll : step s = .next (waitPoll (s.withTurns rest)) := step_cons h
  rw [waitPoll_busy (by exact hr)] at hpoll
  have hinv := withTurns_inv (step_inv hs hpoll) (.wait :: rest)
  obtain ⟨t, ht⟩ := engineStep_next hinv
  obtain ⟨_, -, -, -, -, -, -, -, hturns, -⟩ := engineStep_writes ht
  refine ⟨t, ?_, engineStep_inv hinv ht, hturns, ?_⟩
  · rw [runFor_succ_next hpoll]
    exact runFor_one ((step_cons (t := .engine) (rest := .wait :: rest) rfl).trans ht)
  · rw [engineStep_stepsLeft ht hr]
    exact stepsLeft_samePass (samePass_refl s)

/-- A `WAIT` ends within two turns for each engine step that is left, and one more. -/
theorem wait_ends {rest : List Turn} (n : Nat) {s : State} (hs : s.Inv) (h : s.turns = .wait :: rest)
    (hn : s.stepsLeft = n) :
    ∃ m t v, m ≤ 2 * n + 1 ∧ s.runFor m = .next t ∧ t.turns = rest ∧ t.run = .idle ∧ t.hostData = some v ∧
      v.getLsbD 0 = false := by
  induction n generalizing s with
  | zero =>
    have hr : s.run = .idle := by
      by_contra hr
      exact absurd hn (stepsLeft_pos_iff.mpr hr).ne'
    exact ⟨1, _, _, le_rfl, runFor_one (step_wait_idle hr h), rfl, hr, rfl, statusWord_idle hr⟩
  | succ n ih =>
    have hr : s.run ≠ .idle := stepsLeft_pos_iff.mp (by omega)
    obtain ⟨t₁, hrun, hinv, hturns, hleft⟩ := runFor_wait_busy hs hr h
    obtain ⟨m, t, v, hm, ht, hrest⟩ := ih hinv hturns (by omega)
    exact ⟨2 + m, t, v, by omega, by rw [runFor_add hrun, ht], hrest⟩

/-- Settles O29, by induction on the engine steps that are left. -/
theorem waitEnds : Obligations.WaitEnds := fun _ _ hs h => wait_ends _ hs h rfl

end Sys2Proof.Machine
end

section
/-!
SUPPORT. The quantizer over a fixed factor: order, levels and largest error; and the kernel: targets and shares (R14, R83 to R87,
R99, R100).
-/

namespace Sys2Proof.Machine

/-! ### The order of the levels -/

theorem qlevel_mono {u v : Byte} (f : Factor) (h : u.toNat ≤ v.toNat) : qlevel u f ≤ qlevel v f := by
  rw [qlevel_nat, qlevel_nat]
  exact_mod_cast Nat.mul_le_mul_right _ (Nat.div_le_div_right (Nat.mul_le_mul_left _ h))

theorem qlevel_255_eq_iff (f : Factor) : qlevel 255 f = 255 ↔ f.val ∣ 255 := by
  refine ⟨dvd_of_qlevel_255_eq, fun h => ?_⟩
  rw [qlevel_255]
  exact_mod_cast Nat.mul_div_cancel' h

/-- Settles O37: the level of 150 for the factor 4 is 126, whose own level is 63. -/
theorem qlevelProperties : Obligations.QlevelProperties :=
  ⟨fun _ _ f h => qlevel_mono f h, fun v f => ⟨qlevel_nonneg v f, qlevel_le v f⟩, qlevel_255_eq_iff,
    ⟨4, by decide⟩, 150, by decide⟩

/-! ### The values of a level -/

/-- A level's values begin where the exact product reaches its multiple of 255 (R83). -/
theorem ceil_le_iff (f : Factor) (n v : Nat) : (n + f.val - 1) / f.val ≤ v ↔ n ≤ f.val * v := by
  rw [← Nat.ceilDiv_eq_add_pred_div, ceilDiv_le_iff_le_mul f.pos]

theorem levelIndex_eq_iff (v : Byte) (f : Factor) (j : Nat) :
    f.val * v.toNat / 255 = j ↔
      (255 * j + f.val - 1) / f.val ≤ v.toNat ∧ v.toNat < (255 * (j + 1) + f.val - 1) / f.val := by
  rw [← Nat.not_le, ceil_le_iff, ceil_le_iff]
  generalize f.val * v.toNat = n
  omega

/-- Every index up to a factor of at most 255 is some value's: that of its smallest value. -/
theorem exists_levelIndex {f : Factor} {k : Nat} (hf : f.val ≤ 255) (hk : k ≤ f.val) :
    ∃ v : Byte, f.val * v.toNat / 255 = k := by
  have hpos := f.pos
  have hceil := Nat.div_add_mod (255 * k + f.val - 1) f.val
  have hmod := Nat.mod_lt (255 * k + f.val - 1) hpos
  have hle : (255 * k + f.val - 1) / f.val ≤ 255 := by
    rw [ceil_le_iff, Nat.mul_comm f.val]
    exact Nat.mul_le_mul_left 255 hk
  refine ⟨BitVec.ofNat 8 ((255 * k + f.val - 1) / f.val), ?_⟩
  rw [BitVec.toNat_ofNat, Nat.mod_eq_of_lt (by omega)]
  generalize f.val * ((255 * k + f.val - 1) / f.val) = n at *
  omega

theorem qlevel_eq_top_iff {f : Factor} (v : Byte) (hf : f.val ≤ 255) : qlevel v f = f.val * (255 / f.val) ↔ v = 255 := by
  refine ⟨fun h => ?_, fun h => h ▸ qlevel_255 f⟩
  have hspacing : 0 < 255 / f.val := Nat.div_pos hf f.pos
  rw [qlevel_nat] at h
  have hindex : f.val * v.toNat / 255 = f.val := Nat.eq_of_mul_eq_mul_right hspacing (by exact_mod_cast h)
  have hprod : f.val * 255 ≤ f.val * v.toNat := (Nat.le_div_iff_mul_le (by decide)).mp hindex.ge
  have hv : 255 ≤ v.toNat := Nat.le_of_mul_le_mul_left hprod f.pos
  exact BitVec.eq_of_toNat_eq (le_antisymm (Nat.le_of_lt_succ v.isLt) hv)

/-- Settles O38: the levels are the indices, from 0 to `F`, times the spacing. -/
theorem qlevelLevels : Obligations.QlevelLevels := by
  refine ⟨levelIndex_eq_iff, fun v f => ⟨_, levelIndex_le v f, ?_⟩, fun f k hf hk => ?_, fun f v hf => qlevel_eq_top_iff v hf⟩
  · rw [qlevel_nat]
    norm_cast
  · obtain ⟨v, hv⟩ := exists_levelIndex hf hk
    refine ⟨v, ?_⟩
    rw [qlevel_nat, hv]
    norm_cast

/-! ### The largest error -/

/-- The error of a value, times the factor: what the division by 255 drops, and what the spacing drops at each level below
(R85, R87). -/
theorem factor_mul_value (f v : Nat) :
    f * v = f * (f * v / 255 * (255 / f)) + (f * v / 255 * (255 % f) + f * v % 255) := by
  conv_lhs => rw [← Nat.div_add_mod (f * v) 255]
  have hspacing : 255 = f * (255 / f) + 255 % f := (Nat.div_add_mod 255 f).symm
  generalize f * v / 255 = k
  generalize f * v % 255 = r
  calc 255 * k + r = (f * (255 / f) + 255 % f) * k + r := by rw [← hspacing]
    _ = f * (k * (255 / f)) + (k * (255 % f) + r) := by ring

/-- No error is above that of the top of a level, or that of 255. -/
def errorBound (f : Nat) : Nat := max (((f - 1) * (255 % f) + 254) / f) (255 % f)

theorem value_sub_level_le (f v : Nat) (hf : 0 < f) (hv : v ≤ 255) :
    v - f * v / 255 * (255 / f) ≤ errorBound f := by
  have hvalue := factor_mul_value f v
  rcases Nat.lt_or_eq_of_le hv with hlt | rfl
  · have hindex : f * v / 255 ≤ f - 1 := by
      refine Nat.le_sub_one_of_lt ((Nat.div_lt_iff_lt_mul (by decide)).mpr ?_)
      exact Nat.mul_lt_mul_of_pos_left hlt hf
    have hdropped : f * v / 255 * (255 % f) ≤ (f - 1) * (255 % f) := Nat.mul_le_mul_right _ hindex
    have hrest : f * v % 255 < 255 := Nat.mod_lt _ (by decide)
    refine le_max_of_le_left ((Nat.le_div_iff_mul_le hf).mpr ?_)
    rw [Nat.mul_comm, Nat.mul_sub]
    omega
  · refine le_max_of_le_right ?_
    rw [Nat.mul_div_cancel f (by decide)]
    have := Nat.div_add_mod 255 f
    omega

theorem qerror_le (v : Byte) (f : Factor) : (v.toNat : Int) - qlevel v f ≤ errorBound f.val := by
  rw [qlevel_nat, ← Nat.cast_sub (qlevel_nat_le _ _)]
  exact_mod_cast value_sub_level_le f.val v.toNat f.pos (Nat.le_of_lt_succ v.isLt)

/-- Settles O39: of each factor of the table the bound is the entry, and 254 reaches it, or 255 where the factor is above
255. -/
theorem qlevelLargestErrors : Obligations.QlevelLargestErrors := by
  intro p hp f hf
  have hentry : ∀ p ∈ [(1, 254), (2, 127), (3, 84), (4, 65), (5, 50), (8, 37), (15, 16), (16, 29), (17, 14), (51, 4), (85, 2),
      (128, 127), (254, 1), (255, 0), (256, (255 : Int))],
      (errorBound p.1 : Int) = p.2 ∧
        ∃ v ∈ [(254 : Byte), 255], (v.toNat : Int) - ((p.1 * v.toNat / 255 * (255 / p.1) : Nat) : Int) = p.2 := by decide
  obtain ⟨hbound, v, -, hv⟩ := hentry p hp
  refine ⟨fun u => ?_, v, ?_⟩
  · rw [← hbound, ← hf]
    exact qerror_le u f
  · rw [qlevel_nat, hf, hv]

/-! ### The kernel -/

/-- Settles O43, for each entry of the kernel. -/
theorem targetsLieInsideTheImage : Obligations.TargetsLieInsideTheImage := by
  intro w h x y hx hxw hyh k hk
  rw [inImage_iff]
  simp only [kernel, List.mem_cons, List.not_mem_nil, or_false] at hk
  rcases hk with rfl | rfl | rfl | rfl <;> simp only <;> omega

/-- A share of an error that is a natural number is one (R99). -/
theorem share_nat (e : Nat) {k : KernelEntry} (hk : k ∈ kernel) :
    tdiv (e * k.p) 16 = ((e * k.p.toNat / 16 : Nat) : Int) := by
  rw [kernel_numerator_nat k hk, ← Nat.cast_mul]
  exact tdiv_nat _ 16

/-- The largest numerator is 7 (R14). -/
theorem kernel_numerator_le : ∀ k ∈ kernel, k.p.toNat ≤ 7 := by decide

theorem share_le {e : Nat} (he : e ≤ 255) {k : KernelEntry} (hk : k ∈ kernel) : tdiv (e * k.p) 16 ≤ 111 := by
  have hprod : e * k.p.toNat ≤ 255 * 7 := Nat.mul_le_mul he (kernel_numerator_le k hk)
  rw [share_nat e hk]
  omega

theorem shares_sum (e : Nat) :
    (kernel.map (fun k => tdiv (e * k.p) 16)).sum = ((e * 7 / 16 + e * 3 / 16 + e * 5 / 16 + e / 16 : Nat) : Int) := by
  rw [List.map_congr_left fun k hk => share_nat e hk]
  simp [kernel, add_assoc]

/-- Settles O44: the numerators add up to 16, and each of the four quotients drops less than 1. -/
theorem sharesLoseAtMostThree : Obligations.SharesLoseAtMostThree := by
  refine fun e => ⟨fun k hk => ⟨?_, fun he => share_le he hk⟩, e - (e * 7 / 16 + e * 3 / 16 + e * 5 / 16 + e / 16), ?_, ?_, ?_⟩
  · rw [share_nat e hk]
    exact Int.natCast_nonneg _
  · omega
  · omega
  · rw [shares_sum]
    omega

end Sys2Proof.Machine
end

section
/-!
SUPPORT. The passes pixel by pixel: what a gray pass leaves in each, that neither the order of its visits nor that of a visit's
updates is observable (R72, R74, R96).
-/

namespace Sys2Proof.Machine

/-! ### The gray pass -/

theorem channel_grayOf (p : Pixel) {c : Nat} (hc : c < 3) : (channel (grayOf p) c).toNat = grayLevel p :=
  forall_channel_iff (P := fun v : Byte => v.toNat = grayLevel p).mpr (grayOf_toNat p) c hc

/-- Each channel of a pixel of the image becomes the pixel's truncated average (R70, R71). -/
theorem byteAt_grayPass {s : State} {x y c : Nat} (hx : x < s.w) (hy : y < s.h) (hc : c < 3) :
    ((grayPass s).byteAt (pixelAddr s.w x y c)).toNat = grayLevel (s.readPixel x y) := by
  rw [← grayPass_w s, byteAt_pixelAddr _ x y hc, readPixel_grayPass s x y hx hy, channel_grayOf _ hc]

/-- An average lies between the least and the greatest channel (R74). -/
theorem grayLevel_between (p : Pixel) :
    min p.r.toNat (min p.g.toNat p.b.toNat) ≤ grayLevel p ∧ grayLevel p ≤ max p.r.toNat (max p.g.toNat p.b.toNat) := by
  simp only [grayLevel]
  omega

/-- Settles O33: the pass averages each pixel of the image and writes nothing else. -/
theorem grayPassAverages : Obligations.GrayPassAverages := fun s =>
  ⟨fun x y hx hy => ⟨grayLevel (s.readPixel x y), rfl, fun _ hc => byteAt_grayPass hx hy hc, grayLevel_between _⟩,
    fun _ ha => (grayPass_imageWrites s).beyond ha, grayPass_frame s⟩

/-- Settles O35: distinct visits average the pixels they visit, whatever their order. -/
theorem grayOrderIsUnobservable : Obligations.GrayOrderIsUnobservable := by
  intro s ps hnodup hmem
  obtain ⟨hwrites, hpixel⟩ := readPixel_foldl_grayPixel ps s hnodup fun p hp => (hmem p).mp hp
  refine byteAt_ext (hwrites.w.trans (grayPass_w s).symm) (fun x y hx hy => ?_) (fun a ha => ?_)
  · rw [hwrites.w] at hx
    rw [hwrites.h] at hy
    rw [hpixel x y hx hy, if_pos ((hmem (x, y)).mpr ⟨hx, hy⟩), readPixel_grayPass s x y hx hy]
  · have himage : s.imageBytes ≤ a := by rwa [State.imageBytes, hwrites.w, hwrites.h] at ha
    rw [hwrites.beyond himage, (grayPass_imageWrites s).beyond himage]

/-! ### The order of the updates of a visit -/

/-- The updates of the kernel in another order leave each pixel of the image the same: it is a target of one entry, or of
none (R96). -/
theorem readPixel_diffuse_perm {ks : List KernelEntry} (hks : ks.Perm kernel) (err : Rgb Int) (x y : Nat) {x' y' : Nat}
    {s : State} (hx : x' < s.w) (hy : y' < s.h) :
    (diffuse ks err x y s).readPixel x' y' = (diffuse kernel err x y s).readPixel x' y' := by
  have hnodup : (ks.map (fun k => (k.dx, k.dy))).Nodup := (hks.map _).nodup_iff.mpr kernel_offsets_nodup
  by_cases htarget : ∃ k ∈ kernel, (x : Int) + k.dx = x' ∧ (y : Int) + k.dy = y'
  · obtain ⟨k, hk, hkx, hky⟩ := htarget
    rw [diffuse_at ks err hx hy hnodup (hks.mem_iff.mpr hk) hkx hky,
      diffuse_at kernel err hx hy kernel_offsets_nodup hk hkx hky]
  · have hother : ∀ k ∈ kernel, (x : Int) + k.dx ≠ x' ∨ (y : Int) + k.dy ≠ y' := fun k hk =>
      not_and_or.mp fun hxy => htarget ⟨k, hk, hxy⟩
    rw [diffuse_other ks err hx hy fun k hk => hother k (hks.mem_iff.mp hk), diffuse_other kernel err hx hy hother]

theorem byteAt_diffuse_perm {ks : List KernelEntry} (hks : ks.Perm kernel) (err : Rgb Int) (x y : Nat) (s : State) (a : Nat) :
    (diffuse ks err x y s).byteAt a = (diffuse kernel err x y s).byteAt a := by
  have hks' := diffuse_imageWrites ks err x y s
  have hkernel := diffuse_imageWrites kernel err x y s
  refine byteAt_ext (hks'.w.trans hkernel.w.symm) (fun x' y' hx hy => ?_) (fun a ha => ?_) a
  · exact readPixel_diffuse_perm hks err x y (hks'.w ▸ hx) (hks'.h ▸ hy)
  · have himage : s.imageBytes ≤ a := by rwa [State.imageBytes, hks'.w, hks'.h] at ha
    rw [hks'.beyond himage, hkernel.beyond himage]

/-- Settles O42: both visits write the same quantized pixel and then the same updates, in another order. -/
theorem kernelOrderIsUnobservable : Obligations.KernelOrderIsUnobservable := fun _ _ x y _ _ hks a =>
  byteAt_diffuse_perm hks _ x y _ a

end Sys2Proof.Machine
end

section
/-!
SUPPORT. The dither pass pixel by pixel: what its visits make of the pixels outside the domain, of those they have visited, of a
gray image and of two machines with the same image (R86, R95, R103, R105, R106).
-/

namespace Sys2Proof.Machine

/-! ### A pixel under one visit -/

/-- A position is the visited one, a target of the visit, or neither. -/
theorem position_cases (x y x' y' : Nat) :
    (x = x' ∧ y = y') ∨ (∃ k ∈ kernel, (x : Int) + k.dx = x' ∧ (y : Int) + k.dy = y') ∨
      ((x ≠ x' ∨ y ≠ y') ∧ ∀ k ∈ kernel, (x : Int) + k.dx ≠ x' ∨ (y : Int) + k.dy ≠ y') := by
  by_cases hself : x = x' ∧ y = y'
  · exact .inl hself
  by_cases htarget : ∃ k ∈ kernel, (x : Int) + k.dx = x' ∧ (y : Int) + k.dy = y'
  · exact .inr (.inl htarget)
  · exact .inr (.inr ⟨not_and_or.mp hself, fun k hk => not_and_or.mp fun hxy => htarget ⟨k, hk, hxy⟩⟩)

/-- A pixel of the image after a visit in the domain: quantized, updated by one share of the error, or as it was (R93). -/
theorem readPixel_ditherPixel_cases (f : Factor) {x y x' y' : Nat} {s : State} (hd : inDomain s.w s.h x y = true)
    (hx' : x' < s.w) (hy' : y' < s.h) :
    (x = x' ∧ y = y' ∧ (ditherPixel f x y s).readPixel x' y' = storedPixel (quantized f (s.readPixel x' y'))) ∨
      (∃ k ∈ kernel, (x : Int) + k.dx = x' ∧ (y : Int) + k.dy = y' ∧
        (ditherPixel f x y s).readPixel x' y' = updatedPixel (quantError f (s.readPixel x y)) k.p (s.readPixel x' y')) ∨
      (ditherPixel f x y s).readPixel x' y' = s.readPixel x' y' := by
  obtain ⟨hx, hy⟩ := inDomain_lt hd
  rcases position_cases x y x' y' with ⟨rfl, rfl⟩ | ⟨k, hk, hkx, hky⟩ | ⟨hself, htarget⟩
  · exact .inl ⟨rfl, rfl, readPixel_ditherPixel_self f hx hy⟩
  · exact .inr (.inl ⟨k, hk, hkx, hky, readPixel_ditherPixel_target f hd hk hkx hky⟩)
  · exact .inr (.inr (readPixel_ditherPixel_other f hx hx' hy' hself htarget))

/-- What every visit in the domain keeps, the pass keeps. -/
theorem ditherPass_induction {f : Factor} {s : State} {P : State → Prop} (hstart : P s)
    (hvisit : ∀ t x y, ImageWrites s t → inDomain t.w t.h x y = true → P t → P (ditherPixel f x y t)) :
    P (ditherPass f s) := by
  have hall : ∀ k, k ≤ (s.w - 2) * (s.h - 1) → P (ditherVisits f s k) := by
    intro k hk
    induction k with
    | zero => exact hstart
    | succ k ih =>
      have hwrites := ditherVisits_imageWrites (f := f) (Nat.le_of_succ_le hk)
      rw [ditherVisits_succ]
      refine hvisit _ _ _ hwrites ?_ (ih (Nat.le_of_succ_le hk))
      rw [hwrites.w, hwrites.h]
      exact inDomain_index hk
  exact ditherVisits_all f s ▸ hall _ le_rfl

@[simp] theorem ditherPass_w (f : Factor) (s : State) : (ditherPass f s).w = s.w := (ditherPass_imageWrites f s).w
@[simp] theorem ditherPass_h (f : Factor) (s : State) : (ditherPass f s).h = s.h := (ditherPass_imageWrites f s).h

/-! ### Pixels outside the domain -/

theorem kernel_numerator_nonneg : ∀ k ∈ kernel, 0 ≤ k.p := by decide

theorem channel_diffusedSum (err : Rgb Int) (p : Int) (n : Pixel) (c : Nat) :
    channel (diffusedSum err p n) c = (channel n c).toNat + tdiv (channel err c * p) 16 := by
  simp only [diffusedSum, toInts, channel_zip, channel_map]

/-- A share of an error that is not negative lowers no channel (R103). -/
theorem channel_le_updatedPixel {err : Rgb Int} {p : Int} (n : Pixel) (hp : 0 ≤ p) {c : Nat} (herr : 0 ≤ channel err c) :
    (channel n c).toNat ≤ (channel (updatedPixel err p n) c).toNat := by
  unfold updatedPixel
  split
  · rename_i hrep
    have hstored := congrArg (fun t => channel t c) (storedPixel_representable hrep)
    have hshare : 0 ≤ tdiv (channel err c * p) 16 := Int.tdiv_nonneg (mul_nonneg herr hp) (by decide)
    simp only [toInts, channel_map, channel_diffusedSum] at hstored
    omega
  · exact le_rfl

theorem channel_quantError_nonneg (f : Factor) (p : Pixel) {c : Nat} (hc : c < 3) : 0 ≤ channel (quantError f p) c :=
  forall_channel_iff (P := fun z => 0 ≤ z).mpr (quantError_nonneg f p) c hc

/-- A visit lowers no channel of a pixel that it does not visit (R103). -/
theorem channel_le_ditherPixel (f : Factor) {x y x' y' c : Nat} {s : State} (hd : inDomain s.w s.h x y = true)
    (hx' : x' < s.w) (hy' : y' < s.h) (hc : c < 3) (hne : ¬ (x = x' ∧ y = y')) :
    (channel (s.readPixel x' y') c).toNat ≤ (channel ((ditherPixel f x y s).readPixel x' y') c).toNat := by
  rcases readPixel_ditherPixel_cases f hd hx' hy' with ⟨hx, hy, -⟩ | ⟨k, hk, -, -, e⟩ | e
  · exact absurd ⟨hx, hy⟩ hne
  · rw [e]
    exact channel_le_updatedPixel _ (kernel_numerator_nonneg k hk) (channel_quantError_nonneg f _ hc)
  · rw [e]

theorem channel_le_ditherPass (f : Factor) {x y c : Nat} {s : State} (hx : x < s.w) (hy : y < s.h) (hc : c < 3)
    (hout : ¬ (1 ≤ x ∧ x + 2 ≤ s.w ∧ y + 2 ≤ s.h)) :
    (channel (s.readPixel x y) c).toNat ≤ (channel ((ditherPass f s).readPixel x y) c).toNat := by
  refine ditherPass_induction (P := fun t => (channel (s.readPixel x y) c).toNat ≤ (channel (t.readPixel x y) c).toNat)
    le_rfl fun t u v hwrites hd ht => ht.trans (channel_le_ditherPixel f hd (hwrites.w ▸ hx) (hwrites.h ▸ hy) hc ?_)
  rintro ⟨rfl, rfl⟩
  rw [hwrites.w, hwrites.h] at hd
  exact hout (inDomain_iff.mp hd)

/-- No visit in the domain reaches the position (0, 0) (R103). -/
theorem readPixel_ditherPass_origin (f : Factor) {s : State} (hw : 0 < s.w) (hh : 0 < s.h) :
    (ditherPass f s).readPixel 0 0 = s.readPixel 0 0 := by
  refine ditherPass_induction (P := fun t => t.readPixel 0 0 = s.readPixel 0 0) rfl fun t x y hwrites hd ht => ?_
  have hx := (inDomain_iff.mp hd).1
  rcases readPixel_ditherPixel_cases f hd (hwrites.w ▸ hw) (hwrites.h ▸ hh) with ⟨rfl, -, -⟩ | ⟨k, hk, hkx, hky, -⟩ | e
  · cases hx
  · simp only [kernel, List.mem_cons, List.not_mem_nil, or_false] at hk
    rcases hk with rfl | rfl | rfl | rfl <;> simp only at hkx hky <;> omega
  · rw [e, ht]

theorem byteAt_ditherPass_origin (f : Factor) (s : State) {c : Nat} (hc : c < 3) :
    (ditherPass f s).byteAt c = s.byteAt c := by
  by_cases hempty : s.imageBytes ≤ c
  · exact (ditherPass_imageWrites f s).beyond hempty
  · obtain ⟨hw, hh⟩ : 0 < s.w ∧ 0 < s.h := by
      have hprod : 0 < s.w * s.h := by
        rw [State.imageBytes, Nat.mul_assoc] at hempty
        omega
      exact ⟨pos_of_lt_mul hprod, pos_of_lt_mul (Nat.mul_comm s.w s.h ▸ hprod)⟩
    have haddr : ∀ w, pixelAddr w 0 0 c = c := fun w => by rw [pixelAddr_eq]; omega
    have hpass := byteAt_pixelAddr (ditherPass f s) 0 0 hc
    have hstart := byteAt_pixelAddr s 0 0 hc
    rw [haddr] at hpass hstart
    rw [hpass, hstart, readPixel_ditherPass_origin f hw hh]

/-- Settles O48: a pixel outside the domain is never visited, and no share of an error is negative. -/
theorem boundaryPixelsNeverDecrease : Obligations.BoundaryPixelsNeverDecrease := by
  refine fun s f => ⟨fun x y c hx hy hc hout => ?_, fun c hc => byteAt_ditherPass_origin f s hc,
    fun a ha => (ditherPass_imageWrites f s).beyond ha⟩
  have hle := channel_le_ditherPass f hx hy hc hout
  rwa [← byteAt_pixelAddr _ x y hc, ← byteAt_pixelAddr _ x y hc, ditherPass_w] at hle

/-! ### Pixels of the domain -/

/-- Of two positions of the domain the one with the smaller number is no target of a visit of the other (R94, R95). -/
theorem not_target_of_lt {w j k : Nat} (hjk : j < k) :
    ∀ e ∈ kernel, ((1 + k % w : Nat) : Int) + e.dx ≠ (1 + j % w : Nat) ∨ ((k / w : Nat) : Int) + e.dy ≠ (j / w : Nat) := by
  intro e he
  have hrow : j / w ≤ k / w := Nat.div_le_div_right hjk.le
  have hj := Nat.div_add_mod j w
  have hk := Nat.div_add_mod k w
  rcases Nat.lt_or_eq_of_le hrow with hlt | heq
  · simp only [kernel, List.mem_cons, List.not_mem_nil, or_false] at he
    rcases he with rfl | rfl | rfl | rfl <;> simp only <;> omega
  · rw [heq] at hj ⊢
    simp only [kernel, List.mem_cons, List.not_mem_nil, or_false] at he
    rcases he with rfl | rfl | rfl | rfl <;> simp only <;> omega

theorem index_ne_of_lt {w j k : Nat} (hjk : j < k) : 1 + k % w ≠ 1 + j % w ∨ k / w ≠ j / w := by
  by_contra hcon
  push Not at hcon
  obtain ⟨hcol, hrow⟩ := hcon
  have hj := Nat.div_add_mod j w
  have hk := Nat.div_add_mod k w
  rw [hrow] at hk
  omega

/-- A visited pixel keeps the levels that its visit stored (R95). -/
theorem readPixel_ditherVisits (f : Factor) (s : State) {j k : Nat} (hk : k ≤ (s.w - 2) * (s.h - 1)) (hjk : j < k) :
    ∃ p, (ditherVisits f s k).readPixel (1 + j % (s.w - 2)) (j / (s.w - 2)) = storedPixel (quantized f p) := by
  induction k with
  | zero => cases hjk
  | succ k ih =>
    have hwrites := ditherVisits_imageWrites (f := f) (Nat.le_of_succ_le hk)
    obtain ⟨hx, hy⟩ := inDomain_lt (inDomain_index hk)
    replace hx : 1 + k % (s.w - 2) < (ditherVisits f s k).w := by rwa [hwrites.w]
    replace hy : k / (s.w - 2) < (ditherVisits f s k).h := by rwa [hwrites.h]
    rw [ditherVisits_succ]
    rcases Nat.lt_or_eq_of_le (Nat.le_of_lt_succ hjk) with hlt | rfl
    · obtain ⟨p, hp⟩ := ih (Nat.le_of_succ_le hk) hlt
      obtain ⟨hx', hy'⟩ := inDomain_lt (inDomain_index (hjk.trans_le hk))
      refine ⟨p, ?_⟩
      rw [readPixel_ditherPixel_other f hx (by rwa [hwrites.w]) (by rwa [hwrites.h]) (index_ne_of_lt hlt)
        (not_target_of_lt hlt), hp]
    · exact ⟨_, readPixel_ditherPixel_self f hx hy⟩

/-- The channels of a quantized pixel as stored (R80, R95). -/
theorem channel_storedPixel_quantized (f : Factor) (p : Pixel) (c : Nat) :
    (channel (storedPixel (quantized f p)) c).toNat = f.val * (channel p c).toNat / 255 * (255 / f.val) := by
  have hstored := congrArg (fun t => channel t c) (storedPixel_quantized f p)
  simp only [toInts, quantized, channel_map, qlevel_nat] at hstored
  exact_mod_cast hstored

/-- A byte of a domain pixel after the pass is the level of some byte (R95). -/
theorem byteAt_ditherPass_domain (f : Factor) {s : State} {x y c : Nat} (hd : inDomain s.w s.h x y = true) (hc : c < 3) :
    ∃ v : Byte, ((ditherPass f s).byteAt (pixelAddr s.w x y c)).toNat = f.val * v.toNat / 255 * (255 / f.val) := by
  obtain ⟨k, hk, rfl, rfl⟩ := inDomain_iff_exists_index.mp hd
  obtain ⟨p, hp⟩ := readPixel_ditherVisits f s le_rfl hk
  refine ⟨channel p c, ?_⟩
  rw [← ditherPass_w f s, byteAt_pixelAddr _ _ _ hc, ditherPass_w, ← ditherVisits_all, hp, channel_storedPixel_quantized]

/-- Settles O49: each domain pixel is visited once and is no target after that. -/
theorem domainPixelsEndOnLevels : Obligations.DomainPixelsEndOnLevels := by
  intro s f x y c hx hxw hyh hc
  obtain ⟨v, hv⟩ := byteAt_ditherPass_domain f (inDomain_iff.mpr ⟨hx, hxw, hyh⟩) hc
  refine ⟨⟨_, levelIndex_le v f, hv⟩, fun hf => BitVec.eq_of_toNat_eq (hv.trans ?_)⟩
  rw [Nat.div_eq_of_lt (show 255 < f.val from hf), Nat.mul_zero]
  rfl

/-! ### The factor 255 -/

theorem storedPixel_toInts (p : Pixel) : storedPixel (toInts p) = p := by
  simp only [storedPixel, toInts, Rgb.map, BitVec.ofInt_natCast, BitVec.ofNat_toNat, BitVec.setWidth_eq]

/-- The factor 255 quantizes each pixel to itself (R86). -/
theorem quantized_of_eq_255 {f : Factor} (hf : f.val = 255) (p : Pixel) : quantized f p = toInts p := by
  simp only [quantized, toInts, Rgb.map, qlevel_of_eq_255 _ hf]

/-- So its error is 0. -/
theorem quantError_of_eq_255 {f : Factor} (hf : f.val = 255) (p : Pixel) : quantError f p = ⟨0, 0, 0⟩ := by
  rw [quantError, quantized_of_eq_255 hf]
  simp only [Rgb.zip, sub_self]

theorem updatedPixel_zero (p : Int) (n : Pixel) : updatedPixel ⟨0, 0, 0⟩ p n = n := by
  have hsum : diffusedSum ⟨0, 0, 0⟩ p n = toInts n := by
    simp only [diffusedSum, Rgb.zip, zero_mul, tdiv, Int.zero_tdiv, add_zero]
  rw [updatedPixel, hsum, storedPixel_toInts, ite_self]

theorem byteAt_ditherPixel_of_eq_255 {f : Factor} (hf : f.val = 255) {x y : Nat} {s : State}
    (hd : inDomain s.w s.h x y = true) (a : Nat) : (ditherPixel f x y s).byteAt a = s.byteAt a := by
  obtain ⟨hx, hy⟩ := inDomain_lt hd
  have hwrites := ditherPixel_imageWrites f hx hy
  refine byteAt_ext hwrites.w (fun x' y' hx' hy' => ?_) (fun a ha => hwrites.beyond ?_) a
  · rw [hwrites.w] at hx'
    rw [hwrites.h] at hy'
    rcases readPixel_ditherPixel_cases f hd hx' hy' with ⟨-, -, e⟩ | ⟨k, -, -, -, e⟩ | e
    · rw [e, quantized_of_eq_255 hf, storedPixel_toInts]
    · rw [e, quantError_of_eq_255 hf, updatedPixel_zero]
    · exact e
  · rwa [State.imageBytes, hwrites.w, hwrites.h] at ha

/-- Settles O50: each visit stores the pixel as it is and diffuses an error of 0. -/
theorem factor255ChangesNothing : Obligations.Factor255ChangesNothing := by
  intro s f a hf
  refine ditherPass_induction (P := fun t => t.byteAt a = s.byteAt a) rfl fun t x y _ hd ht => ?_
  rw [byteAt_ditherPixel_of_eq_255 hf hd, ht]

/-! ### Gray images -/

/-- The three channels are equal (R74). -/
def Gray {α : Type} (p : Rgb α) : Prop := p.r = p.g ∧ p.g = p.b

/-- The lanes are computed alike, so equal channels stay equal (R106). -/
theorem Gray.map {α β : Type} {p : Rgb α} (h : Gray p) (g : α → β) : Gray (p.map g) := h.imp (congrArg g) (congrArg g)

theorem Gray.zip {α β γ : Type} {p : Rgb α} {q : Rgb β} (hp : Gray p) (hq : Gray q) (g : α → β → γ) : Gray (p.zip g q) :=
  ⟨congrArg₂ g hp.1 hq.1, congrArg₂ g hp.2 hq.2⟩

theorem Gray.quantized {p : Pixel} (h : Gray p) (f : Factor) : Gray (quantized f p) := h.map _

theorem Gray.quantError {p : Pixel} (h : Gray p) (f : Factor) : Gray (quantError f p) := (h.map _).zip (h.quantized f) _

theorem Gray.updatedPixel {err : Rgb Int} {n : Pixel} (herr : Gray err) (hn : Gray n) (p : Int) :
    Gray (updatedPixel err p n) := by
  unfold Machine.updatedPixel
  split
  · exact ((hn.map _).zip herr _).map _
  · exact hn

theorem grayImage_ditherPixel (f : Factor) {x y : Nat} {s : State} (hs : s.grayImage) (hd : inDomain s.w s.h x y = true) :
    (ditherPixel f x y s).grayImage := by
  obtain ⟨hx, hy⟩ := inDomain_lt hd
  intro x' y' hx' hy'
  rw [ditherPixel_w] at hx'
  rw [ditherPixel_h] at hy'
  have hgray : Gray (s.readPixel x' y') := hs x' y' hx' hy'
  have hvisited : Gray (s.readPixel x y) := hs x y hx hy
  rcases readPixel_ditherPixel_cases f hd hx' hy' with ⟨-, -, e⟩ | ⟨k, -, -, -, e⟩ | e <;> rw [e]
  · exact (hgray.quantized f).map _
  · exact (hvisited.quantError f).updatedPixel hgray k.p
  · exact hgray

/-- Settles O51: levels, errors and sums of equal channels are equal. -/
theorem grayImageStaysGray : Obligations.GrayImageStaysGray := fun _ f hs =>
  ⟨fun _ _ hd => grayImage_ditherPixel f hs hd,
    ditherPass_induction hs fun _ _ _ _ hd ht => grayImage_ditherPixel f ht hd⟩

/-! ### Two machines with the same image -/

/-- The two states hold the same image: its dimensions and its pixels. -/
def SameImage (s t : State) : Prop :=
  s.w = t.w ∧ s.h = t.h ∧ ∀ x y, x < s.w → y < s.h → s.readPixel x y = t.readPixel x y

theorem SameImage.byteAt {s t : State} (h : SameImage s t) {a : Nat} (ha : a < s.imageBytes) : s.byteAt a = t.byteAt a := by
  obtain ⟨hw, -, hpixel⟩ := h
  obtain ⟨x, y, c, hx, hy, hc, rfl⟩ := exists_pixelAddr ha
  rw [byteAt_pixelAddr s x y hc, hpixel x y hx hy, ← byteAt_pixelAddr t x y hc, hw]

theorem sameImage_of_byteAt {s t : State} (hw : s.w = t.w) (hh : s.h = t.h)
    (h : ∀ a, a < s.imageBytes → s.byteAt a = t.byteAt a) : SameImage s t :=
  ⟨hw, hh, fun _ _ hx hy => readPixel_congr hw fun _ hc => h _ (hw ▸ pixelAddr_lt hx hy hc)⟩

theorem SameImage.grayPass {s t : State} (h : SameImage s t) : SameImage (grayPass s) (grayPass t) := by
  obtain ⟨hw, hh, hpixel⟩ := h
  refine ⟨by simpa using hw, by simpa using hh, fun x y hx hy => ?_⟩
  rw [grayPass_w] at hx
  rw [grayPass_h] at hy
  rw [readPixel_grayPass s x y hx hy, readPixel_grayPass t x y (hw ▸ hx) (hh ▸ hy), hpixel x y hx hy]

/-- What a visit makes of a pixel depends on the image alone (R105). -/
theorem SameImage.ditherPixel {s t : State} (h : SameImage s t) (f : Factor) {x y : Nat}
    (hd : inDomain s.w s.h x y = true) : SameImage (ditherPixel f x y s) (ditherPixel f x y t) := by
  obtain ⟨hw, hh, hpixel⟩ := h
  obtain ⟨hx, hy⟩ := inDomain_lt hd
  have hd' : inDomain t.w t.h x y = true := hw ▸ hh ▸ hd
  obtain ⟨hxt, hyt⟩ := inDomain_lt hd'
  refine ⟨by simpa using hw, by simpa using hh, fun x' y' hx' hy' => ?_⟩
  rw [ditherPixel_w] at hx'
  rw [ditherPixel_h] at hy'
  rcases position_cases x y x' y' with ⟨rfl, rfl⟩ | ⟨k, hk, hkx, hky⟩ | ⟨hself, htarget⟩
  · rw [readPixel_ditherPixel_self f hx hy, readPixel_ditherPixel_self f hxt hyt, hpixel x y hx hy]
  · rw [readPixel_ditherPixel_target f hd hk hkx hky, readPixel_ditherPixel_target f hd' hk hkx hky, hpixel x y hx hy,
      hpixel x' y' hx' hy']
  · rw [readPixel_ditherPixel_other f hx hx' hy' hself htarget,
      readPixel_ditherPixel_other f hxt (hw ▸ hx') (hh ▸ hy') hself htarget, hpixel x' y' hx' hy']

theorem SameImage.ditherVisits {s t : State} (h : SameImage s t) (f : Factor) {k : Nat} (hk : k ≤ (s.w - 2) * (s.h - 1)) :
    SameImage (ditherVisits f s k) (ditherVisits f t k) := by
  induction k with
  | zero => exact h
  | succ k ih =>
    have hwrites := ditherVisits_imageWrites (f := f) (Nat.le_of_succ_le hk)
    rw [ditherVisits_succ, ditherVisits_succ, ← h.1]
    refine (ih (Nat.le_of_succ_le hk)).ditherPixel f ?_
    rw [hwrites.w, hwrites.h]
    exact inDomain_index hk

theorem SameImage.ditherPass {s t : State} (h : SameImage s t) (f : Factor) : SameImage (ditherPass f s) (ditherPass f t) := by
  have hvisits := h.ditherVisits f le_rfl
  rwa [ditherVisits_all, h.1, h.2.1, ditherVisits_all] at hvisits

/-- Settles O52: both passes keep two machines with the same image so. -/
theorem passDependsOnTheImageAlone : Obligations.PassDependsOnTheImageAlone := by
  intro s t f hwidth hheight hbytes a ha
  have himage : SameImage s t := sameImage_of_byteAt (congrArg BitVec.toNat hwidth) (congrArg BitVec.toNat hheight) hbytes
  refine ⟨(himage.ditherPass f).byteAt ?_, himage.grayPass.byteAt ?_⟩
  · rw [State.imageBytes, ditherPass_w, ditherPass_h]
    exact ha
  · rw [grayPass_imageBytes]
    exact ha

end Sys2Proof.Machine
end

section
/-!
SUPPORT. Power-up and reset: the registers, and the bytes that a reset leaves as they were (R24, R150, R151, R153).
-/

namespace Sys2Proof.Machine

/-- `STATUS` reads 0 of an idle machine whose flags are those of reset (R18, R24). -/
theorem statusWord_reset {s : State} (hr : s.run = .idle) (hst : s.status = .reset) : statusWord s = 0 := by
  have hbusy : s.busy = false := by simp only [State.busy, hr, ne_eq, not_true, decide_false]
  rw [statusWord, hst, hbusy]
  decide

/-- Settles O53: power-up lists no byte and puts the registers of R24. -/
theorem powerUpState : Obligations.PowerUpState := by
  rintro s (⟨capacity, rfl⟩ | rfl)
  all_goals exact ⟨rfl, rfl, rfl, rfl, rfl, rfl, rfl, rfl, rfl, rfl, statusWord_reset rfl rfl, fun _ => rfl, engineStep_idle rfl⟩

/-- A reset is the reset event, its turn taken (R150). -/
theorem step_reset {s : State} {rest : List Turn} (h : s.turns = .reset :: rest) :
    step s = .next (resetEvent (s.withTurns rest)) := step_cons h

/-- Settles O54: the reset event puts every register, in either mode. -/
theorem resetEventResult : Obligations.ResetEventResult := fun _ _ h =>
  ⟨_, step_reset h, rfl, rfl, rfl, rfl, rfl, rfl, rfl, rfl, rfl, statusWord_reset rfl rfl, engineStep_idle rfl⟩

/-! ### The buffer after a reset -/

theorem byteAt_resetEvent_idle {s : State} (hr : s.run = .idle) (a : Nat) : (resetEvent s).byteAt a = s.byteAt a :=
  byteAt_congr (resetEvent_pb_idle hr) (if_pos hr) a

/-- A reset that cuts a pass makes no byte unspecified at the end of the image or above (R153). -/
theorem generation_cons_of_le {n a : Nat} (lost : List Nat) (h : n ≤ a) : generation (n :: lost) a = generation lost a :=
  List.countP_cons_of_neg (by simpa using h)

theorem byteAt_resetEvent_busy {s : State} (hr : s.run ≠ .idle) {a : Nat} (ha : s.imageBytes ≤ a) :
    (resetEvent s).byteAt a = s.byteAt a := by
  have hlost : (resetEvent s).lost = s.imageBytes :: s.lost := if_neg hr
  rw [State.byteAt, State.byteAt, State.unwritten, State.unwritten, resetEvent_pb_busy hr, hlost, get?_dropBelow, if_pos ha,
    generation_cons_of_le _ ha]

theorem get?_resetEvent_busy {s : State} (hr : s.run ≠ .idle) {a : Nat} (ha : a < s.imageBytes) :
    Memory.get? (resetEvent s).pb a = none := by
  rw [resetEvent_pb_busy hr, get?_dropBelow, if_neg (Nat.not_le.mpr ha)]

/-- Settles O55: an idle reset keeps the list of bytes, one that cuts a pass drops those of the image. -/
theorem resetAndTheBuffer : Obligations.ResetAndTheBuffer := fun s rest h =>
  ⟨_, step_reset h, fun hr a => byteAt_resetEvent_idle (s := s.withTurns rest) hr a,
    fun hr => ⟨fun _ ha => byteAt_resetEvent_busy (s := s.withTurns rest) hr ha,
      fun _ ha => get?_resetEvent_busy (s := s.withTurns rest) hr ha⟩⟩

end Sys2Proof.Machine
end

section
/-!
SUPPORT. A `LOAD` as the host runs it: the two dimension writes, and a buffer write for each byte (R61).
-/

namespace Sys2Proof.Machine

/-- The memory with the listed bytes written from address `a` on. -/
def storeBytes (a : Nat) : List Byte → List Host.Cell → List Host.Cell
  | [], m => m
  | v :: rest, m => storeBytes (a + 1) rest (Memory.set m a v)

theorem get?_storeBytes_outside (bytes : List Byte) {a b : Nat} (m : List Host.Cell)
    (h : b < a ∨ a + bytes.length ≤ b) : Memory.get? (storeBytes a bytes m) b = Memory.get? m b := by
  induction bytes generalizing a m with
  | nil => rfl
  | cons v rest ih =>
    rw [List.length_cons] at h
    rw [storeBytes, ih _ (by omega), get?_set_other m v (by omega)]

theorem get?_storeBytes_inside (bytes : List Byte) {a i : Nat} (m : List Host.Cell) (hi : i < bytes.length) :
    Memory.get? (storeBytes a bytes m) (a + i) = some bytes[i] := by
  induction bytes generalizing a m i with
  | nil => cases hi
  | cons v rest ih =>
    rw [storeBytes]
    cases i with
    | zero =>
      rw [get?_storeBytes_outside rest _ (by omega)]
      exact get?_set_self m a v
    | succ i =>
      have hget := ih (a := a + 1) (Memory.set m a v) (Nat.lt_of_succ_lt_succ hi)
      rw [Nat.add_right_comm] at hget
      exact hget

theorem length_loadBytes (bytes : List Byte) (a : Nat) : (loadBytes a bytes).length = bytes.length := by
  induction bytes generalizing a with
  | nil => rfl
  | cons v rest ih => rw [loadBytes, List.length_cons, ih, List.length_cons]

/-- The buffer writes of a `LOAD`, run from an idle machine, store its bytes. -/
theorem runFor_loadBytes (bytes : List Byte) {a : Nat} {s : State} {rest : List Turn} (hr : s.run = .idle)
    (hturns : s.turns = loadBytes a bytes ++ rest) (hfit : a + bytes.length ≤ s.pbBytes) :
    s.runFor bytes.length = .next { s with turns := rest, pb := storeBytes a bytes s.pb } := by
  induction bytes generalizing a s with
  | nil =>
    obtain rfl : s.turns = rest := hturns
    rfl
  | cons v bytes ih =>
    rw [List.length_cons] at hfit ⊢
    have hstep := step_bufWrite_idle hr hturns
    rw [if_pos (by omega)] at hstep
    rw [runFor_succ_next hstep]
    exact ih (a := a + 1) (s := (s.withTurns _).setByte a v) hr rfl (by rw [setByte_pbBytes, withTurns_pbBytes]; omega)

/-- The turns of a `LOAD`, run from an idle machine, set the dimensions and store its bytes. -/
theorem runFor_load {s : State} {w h : Word} {bytes : List Byte} {rest : List Turn} (hr : s.run = .idle)
    (hturns : s.turns = .host (.wr 0x08 w) :: .host (.wr 0x0C h) :: (loadBytes 0 bytes ++ rest))
    (hfit : bytes.length ≤ s.pbBytes) :
    s.runFor (bytes.length + 1 + 1) = .next
      { s with turns := rest, width := w.setWidth 16, height := h.setWidth 16, pb := storeBytes 0 bytes s.pb } := by
  have hwidth := step_writeWidth_idle hr hturns
  rw [← setWidth_half] at hwidth
  have hheight := step_writeHeight_idle
    (s := { s with turns := .host (.wr 0x0C h) :: (loadBytes 0 bytes ++ rest), width := w.setWidth 16 }) hr rfl
  rw [← setWidth_half] at hheight
  rw [runFor_succ_next hwidth, runFor_succ_next hheight]
  exact runFor_loadBytes bytes (by exact hr) rfl (by rwa [Nat.zero_add])

/-- Settles O57: the stored bytes are those of the list, at the addresses from 0 on. -/
theorem loadPlacesTheImage : Obligations.LoadPlacesTheImage := by
  intro s w h bytes ts hr hfit hts
  cases hts
  rw [List.length_cons, List.length_cons, length_loadBytes]
  refine ⟨_, runFor_load (s := s.withScript _) hr rfl hfit, rfl, fun a ha => ?_, fun a ha => ?_⟩
  · have hget := get?_storeBytes_inside bytes (a := 0) s.pb ha
    rw [Nat.zero_add] at hget
    exact congrArg (fun o => Option.getD o _) hget
  · have hget := get?_storeBytes_outside bytes (a := 0) (b := a) s.pb (.inr (by rwa [Nat.zero_add]))
    exact congrArg (fun o => Option.getD o _) hget

end Sys2Proof.Machine
end
